-- ==== Sys2Proof/Word.lean ====
section
/-! DEFINITION. The word and byte types of the machine: MIPS32 registers, addresses and instructions are 32 bits
wide (R5, R20, R70), memory is byte-addressed (R50). Arithmetic on them is modulo 2^32 (R9), which is what
`BitVec` addition does. -/

namespace Sys2Proof

/-- A register, address or instruction word: 32 bits, bit 0 the least significant (R6). -/
abbrev Word := BitVec 32

/-- A byte of memory. -/
abbrev Byte := BitVec 8

end Sys2Proof
end

