-- ==== Sys2Proof/Syntax.lean ====
section
/-! DEFINITION. The instructions, one constructor per row of spec/opcode_table.json, with the operands of the
assembler syntax (R82). -/

namespace Sys2Proof

/-- The three instructions of the MCU ASE (R3). `base` is a general register number, `bit` a bit number within the
byte, `offset` a signed byte offset; WellFormed gives their ranges. -/
inductive Instr where
  /-- `ACLR bit, offset(base)`, R90. -/
  | aclr (base bit : Nat) (offset : Int)
  /-- `ASET bit, offset(base)`, R91. -/
  | aset (base bit : Nat) (offset : Int)
  /-- `IRET`, R100. -/
  | iret
deriving DecidableEq, Repr

end Sys2Proof
end

