-- ==== Sys2Proof/WellFormed.lean ====
section
/-! DEFINITION. Which instruction terms are instructions: the operand ranges of R77. -/

namespace Sys2Proof

/-- R77: `0 ≤ base ≤ 31`, `0 ≤ bit ≤ 7`, `-2048 ≤ offset ≤ 2047`. -/
abbrev operandsFit (base bit : Nat) (offset : Int) : Prop :=
  base < 32 ∧ bit < 8 ∧ -2048 ≤ offset ∧ offset ≤ 2047

/-- The terms an assembler can encode; the decoder answers no other. -/
abbrev Instr.WellFormed : Instr → Prop
  | .aclr base bit offset => operandsFit base bit offset
  | .aset base bit offset => operandsFit base bit offset
  | .iret => True

end Sys2Proof
end

