-- ==== Sys2Proof/Decode.lean ====
section
/-! DEFINITION. Byte order of an instruction word, the decoder and the encoder (30_encoding). The decoder is total
and rejects by name. -/

namespace Sys2Proof

/-- R55: the word of the four bytes at ascending addresses, `be` being BigEndianCPU. -/
def wordOfBytes (be : Bool) (b0 b1 b2 b3 : Byte) : Word :=
  if be then b0 ++ b1 ++ b2 ++ b3 else b3 ++ b2 ++ b1 ++ b0

/-- The four bytes of a word at ascending addresses: the inverse of `wordOfBytes` (R55). -/
def bytesOfWord (be : Bool) (w : Word) : Byte × Byte × Byte × Byte :=
  if be then (w.extractLsb' 24 8, w.extractLsb' 16 8, w.extractLsb' 8 8, w.extractLsb' 0 8)
  else (w.extractLsb' 0 8, w.extractLsb' 8 8, w.extractLsb' 16 8, w.extractLsb' 24 8)

/-- What the decoder answers: an instruction, or a rejection by name. -/
inductive Decoded where
  | instr (i : Instr)
  /-- the word is none of the three instructions (R78) -/
  | notInScope (w : Word)
  /-- there are not four bytes, the length of every instruction (R70) -/
  | notAWord
deriving DecidableEq, Repr

/-- A row of the opcode map of R76: a word belongs to the row when its masked bits are the pattern. -/
structure OpcodeRow where
  mask : Word
  pattern : Word
deriving DecidableEq, Repr

/-- R76, ACLR. -/
def rowAclr : OpcodeRow := ⟨0xFC1F8000, 0x04070000⟩
/-- R76, ASET. -/
def rowAset : OpcodeRow := ⟨0xFC1F8000, 0x04078000⟩
/-- R76, IRET. -/
def rowIret : OpcodeRow := ⟨0xFFFFFFFF, 0x42000038⟩

/-- R76: `w and mask = match` selects the instruction. -/
def OpcodeRow.selects (r : OpcodeRow) (w : Word) : Bool :=
  w &&& r.mask == r.pattern

/-- `base` is `w[25:21]` (R75). -/
def fieldBase (w : Word) : Nat := (w.extractLsb' 21 5).toNat
/-- `bit` is `w[14:12]` (R75). -/
def fieldBit (w : Word) : Nat := (w.extractLsb' 12 3).toNat
/-- `offset` is the 12-bit two's-complement number `w[11:0]` (R74). -/
def fieldOffset (w : Word) : Int := (w.extractLsb' 0 12).toInt

/-- The decoder of a 32-bit word fetched with ISAMode 0 (R76, R78). -/
def decodeWord (w : Word) : Decoded :=
  if rowAclr.selects w then .instr (.aclr (fieldBase w) (fieldBit w) (fieldOffset w))
  else if rowAset.selects w then .instr (.aset (fieldBase w) (fieldBit w) (fieldOffset w))
  else if rowIret.selects w then .instr .iret
  else .notInScope w

/-- The decoder of bytes as they lie in memory, at ascending addresses (R55, R69, R70). -/
def decodeBytes (be : Bool) : List Byte → Decoded
  | [b0, b1, b2, b3] => decodeWord (wordOfBytes be b0 b1 b2 b3)
  | _ => .notAWord

/-- The operand bits of ACLR and ASET in place (R77). -/
def encodeOperands (base bit : Nat) (offset : Int) : Word :=
  (BitVec.ofNat 32 base <<< 21) ||| (BitVec.ofNat 32 bit <<< 12) ||| (BitVec.ofInt 32 offset &&& 0xFFF)

/-- The word of a well-formed instruction (R77). -/
def encode : Instr → Word
  | .aclr base bit offset => 0x04070000 ||| encodeOperands base bit offset
  | .aset base bit offset => 0x04078000 ||| encodeOperands base bit offset
  | .iret => 0x42000038

/-- The bytes of a well-formed instruction as they lie in memory (R55, R69). -/
def encodeBytes (be : Bool) (i : Instr) : List Byte :=
  let (b0, b1, b2, b3) := bytesOfWord be (encode i)
  [b0, b1, b2, b3]

/-- The instruction the decoder reads from the word whose low `nbits` bits are those of `w` and whose other bits
are 0, laid out in memory in the byte order of the reset state. -/
def decodeTableWord (nbits w : Nat) : Option Instr :=
  let (b0, b1, b2, b3) := bytesOfWord false (BitVec.ofNat 32 (w % 2 ^ nbits))
  match decodeBytes false [b0, b1, b2, b3] with
  | .instr i => some i
  | _ => none

end Sys2Proof
end

