-- ==== Sys2Proof/Machine/Layout.lean ====
section
/-! DEFINITION. The parameter `Layout` (R5, D4): where each field stands in its register, with its default from R27 to
R32 (log 2); and the default frame sizes of R118. -/

namespace Sys2Proof

/-- The bit positions: of a field its lowest bit, of the priorities IPL and RIPL each of their eight bits, bit 0 first
(a machine with `IPLW` 6 uses the first six). EBase has no entry: its bits 31 to 12 are the source's (R31). -/
structure Positions where
  /-- Status.IE, R27 -/
  ie : Nat
  /-- Status.EXL, R27 -/
  exl : Nat
  /-- Status.ERL, R27 -/
  erl : Nat
  /-- Status.KSU, 2 bits, R27 -/
  ksu : Nat
  /-- Status.BEV, R27 -/
  bev : Nat
  /-- Status.CU0, R27 -/
  cu0 : Nat
  /-- Status.IPL, R27 -/
  ipl : Vector Nat 8
  /-- Cause.ExcCode, 5 bits, R28 -/
  excCode : Nat
  /-- Cause.RIPL, R28 -/
  ripl : Vector Nat 8
  /-- Cause.IV, R28 -/
  iv : Nat
  /-- Cause.IC, R28 -/
  ic : Nat
  /-- Cause.CE, 2 bits, R140 -/
  ce : Nat
  /-- Cause.BD, R140 -/
  bd : Nat
  /-- SRSCtl.CSS, 4 bits, R29 -/
  css : Nat
  /-- SRSCtl.PSS, 4 bits, R29 -/
  pss : Nat
  /-- SRSCtl.ESS, 4 bits, R29 -/
  ess : Nat
  /-- SRSCtl.EICSS, 4 bits, R29 -/
  eicss : Nat
  /-- SRSCtl.HSS, 4 bits, R29 -/
  hss : Nat
  /-- IntCtl.APE, R30 -/
  ape : Nat
  /-- IntCtl.ICE, R30 -/
  ice : Nat
  /-- IntCtl.StkDec, 5 bits, R30 -/
  stkDec : Nat
  /-- IntCtl.ClrEXL, R30 -/
  clrExl : Nat
  /-- IntCtl.VS, 5 bits, R30 -/
  vs : Nat
  /-- Config3.VEIC, R32 -/
  veic : Nat
  /-- Config3.ISAOnExc, R32 -/
  isaOnExc : Nat
  /-- Config3.MCU, R32 -/
  mcu : Nat
  /-- Config3.ISA, 2 bits, R32 -/
  isa : Nat
  /-- Config3.IPLW, 2 bits, R32 -/
  iplw : Nat
deriving DecidableEq, Repr

/-- Fields, each by its lowest bit and its width, that lie within 32 bits and do not overlap. -/
abbrev fieldsFit (fields : List (Nat × Nat)) : Prop :=
  (∀ f ∈ fields, f.1 + f.2 ≤ 32) ∧ fields.Pairwise fun f g => f.1 + f.2 ≤ g.1 ∨ g.1 + g.2 ≤ f.1

/-- The fields of Status (R27). -/
abbrev Positions.statusFields (p : Positions) : List (Nat × Nat) :=
  [(p.ie, 1), (p.exl, 1), (p.erl, 1), (p.ksu, 2), (p.bev, 1), (p.cu0, 1), (p.ipl[0], 1), (p.ipl[1], 1),
    (p.ipl[2], 1), (p.ipl[3], 1), (p.ipl[4], 1), (p.ipl[5], 1), (p.ipl[6], 1), (p.ipl[7], 1)]

/-- The fields of Cause (R28, R140). -/
abbrev Positions.causeFields (p : Positions) : List (Nat × Nat) :=
  [(p.excCode, 5), (p.iv, 1), (p.ic, 1), (p.ce, 2), (p.bd, 1), (p.ripl[0], 1), (p.ripl[1], 1),
    (p.ripl[2], 1), (p.ripl[3], 1), (p.ripl[4], 1), (p.ripl[5], 1), (p.ripl[6], 1), (p.ripl[7], 1)]

/-- The fields of SRSCtl (R29). -/
abbrev Positions.srsCtlFields (p : Positions) : List (Nat × Nat) :=
  [(p.css, 4), (p.pss, 4), (p.ess, 4), (p.eicss, 4), (p.hss, 4)]

/-- The fields of IntCtl (R30). -/
abbrev Positions.intCtlFields (p : Positions) : List (Nat × Nat) :=
  [(p.ape, 1), (p.ice, 1), (p.stkDec, 5), (p.clrExl, 1), (p.vs, 5)]

/-- The fields of Config3 (R32). -/
abbrev Positions.config3Fields (p : Positions) : List (Nat × Nat) :=
  [(p.veic, 1), (p.isaOnExc, 1), (p.mcu, 1), (p.isa, 2), (p.iplw, 2)]

/-- A layout: positions at which the fields of each register fit in its 32 bits without overlap. -/
structure Layout extends Positions where
  statusFit : fieldsFit toPositions.statusFields
  causeFit : fieldsFit toPositions.causeFields
  srsCtlFit : fieldsFit toPositions.srsCtlFields
  intCtlFit : fieldsFit toPositions.intCtlFields
  config3Fit : fieldsFit toPositions.config3Fields
deriving DecidableEq, Repr

/-- The positions of R27 to R32 and of R140 (G11 to G16 and G30, log 2). -/
def Positions.standard : Positions where
  ie := 0
  exl := 1
  erl := 2
  ksu := 3
  bev := 22
  cu0 := 28
  ipl := #v[10, 11, 12, 13, 14, 15, 16, 18]
  excCode := 2
  ripl := #v[10, 11, 12, 13, 14, 15, 16, 17]
  iv := 23
  ic := 25
  ce := 28
  bd := 31
  css := 0
  pss := 6
  ess := 12
  eicss := 18
  hss := 26
  ape := 14
  ice := 21
  stkDec := 16
  clrExl := 15
  vs := 5
  veic := 6
  isaOnExc := 16
  mcu := 17
  isa := 14
  iplw := 21

/-- The default layout (R5). -/
def Layout.standard : Layout where
  toPositions := Positions.standard
  statusFit := by decide
  causeFit := by decide
  srsCtlFit := by decide
  intCtlFit := by decide
  config3Fit := by decide

/-- R118's default decoding of IntCtl.StkDec: 12 bytes for 0 to 3, else 4 bytes for each unit (G29, log 32). -/
def Config.stkDecDefault : Vector Word 32 :=
  #v[12, 12, 12, 12, 16, 20, 24, 28, 32, 36, 40, 44, 48, 52, 56, 60,
     64, 68, 72, 76, 80, 84, 88, 92, 96, 100, 104, 108, 112, 116, 120, 124]

end Sys2Proof
end

