-- ==== Sys2Proof/Config.lean ====
section
/-! DEFINITION. What an implementation fixes (the parameters of R5) and the free values. The parameters are plain
data held in the state's field `cfg`, which no step writes: a statement about every state is a statement about
every value of every parameter. WatchMatch and the platform's bus and cache errors are tables. The parameters that are
functions of the whole state (Translate, Cp0Usable, TrapEntry) are named by an `OpenFn`. The free values are opaque
constants: nothing can evaluate them. -/

namespace Sys2Proof

/-- The kind of a memory access: R12's `LOAD` and `STORE`, and instruction fetch (R69, R133). -/
inductive Access where
  | load
  | store
  | fetch
deriving DecidableEq, Repr

/-- The exceptions `Translate` can answer in place of a physical address (R52). -/
inductive TransFault where
  | tlbRefill
  | tlbInvalid
  | tlbModified
  | addressError
deriving DecidableEq, Repr

/-- How a parameter that is a function of the whole state is given (R5: the model takes it as an argument). -/
inductive OpenFn where
  /-- the default the spec gives it (for `Translate`, which has none, the tables of the configuration) -/
  | standard
  /-- the function of this number, of which nothing is known: an opaque constant of Machine/Open.lean -/
  | other (n : Nat)
deriving DecidableEq, Repr

/-- When an entry of a translation table applies: the masked Status and EntryHi have the given values ("mode bits of
Status", R52); all-zero masks make an entry always apply. -/
structure StateCond where
  statusMask : Word
  statusMatch : Word
  entryHiMask : Word
  entryHiMatch : Word
deriving DecidableEq, Repr

/-- The virtual addresses `lo` to `hi`, both included, map to the physical addresses from `pa` on (R51); `cca` is
the coherency attribute, passed through and never examined (R61). -/
structure MapEntry where
  cond : StateCond
  lo : Word
  hi : Word
  pa : Nat
  cca : Nat
deriving DecidableEq, Repr

/-- An access of kind `acc` (`none`: of any kind) to a virtual address from `lo` to `hi` is answered with the
exception `kind` (R52). An entry for `tlbModified` applies to stores only, whatever `acc` says. -/
structure FaultEntry where
  cond : StateCond
  acc : Option Access
  lo : Word
  hi : Word
  kind : TransFault
deriving DecidableEq, Repr

/-- A watchpoint on the addresses `lo` to `hi` for accesses of `bytes` bytes and kind `acc` (`none`: any); the
table of these is the parameter `WatchMatch` (R53, R96). -/
structure WatchEntry where
  lo : Word
  hi : Word
  bytes : Option Nat
  acc : Option Access
deriving DecidableEq, Repr

/-- The two errors of the platform a stack load can meet (R53, R120). -/
inductive DataErrorKind where
  | bus
  | cache
deriving DecidableEq, Repr

/-- A load at a physical address from `lo` to `hi` meets this error of the platform (R53, D16). -/
structure DataErrorEntry where
  lo : Nat
  hi : Nat
  kind : DataErrorKind
deriving DecidableEq, Repr

/-- The width of the interrupt priority fields, `IPLW` of R5. -/
inductive IplWidth where
  | six
  | eight
deriving DecidableEq, Repr

/-- How the External Interrupt Controller tells the core the vector, `EIC_Option` of R40 and R114. Only 1, 2 and 3
are configurations of the model (R115). -/
inductive EicOption where
  | option1
  | option2
  | option3
deriving DecidableEq, Repr

/-- The outputs the External Interrupt Controller presents to one IRET (R40, D17). -/
structure EicSample where
  ripl : BitVec 8
  ss : BitVec 4
  vectorNum : BitVec 8
  vectorOffset : Word
deriving DecidableEq, Repr, Inhabited

/-- The event one chaining IRET sends to the External Interrupt Controller (R41). -/
structure EicAck where
  ripl : BitVec 8
  ss : BitVec 4
deriving DecidableEq, Repr

/-- The reset-like events, each an exception that arrives from outside the core (R160). -/
inductive ResetEvent where
  | reset
  | softReset
  | nmi
deriving DecidableEq, Repr

/-- The parameters of R5 that an implementation fixes. -/
structure Config where
  /-- `ArchRev`, the architecture revision (R2). -/
  archRev : Nat
  /-- `HasMicroMIPS`, the source's `IsMicroMIPSImplemented()` (R25). -/
  hasMicroMIPS : Bool
  /-- `BigEndianCPU` (R55). -/
  bigEndianCPU : Bool
  /-- `PSIZE`, the width of a physical address in bits (R51). -/
  psize : Nat
  /-- `IPLW` (R27, R28). -/
  iplw : IplWidth
  /-- `EIC_Option` (R40). -/
  eicOption : EicOption
  /-- `StatusWMask`, the bits of Status that a write of the whole register changes (R37). -/
  statusWMask : Word
  /-- `StkDecBytes`, the frame size in bytes for each value of IntCtl.StkDec (R118). -/
  stkDecBytes : Vector Word 32
  /-- `RmwLocked` (R60). With one agent on memory it has no effect: no definition reads it. -/
  rmwLocked : Bool
  /-- `Layout`, the bit positions of the fields of the Coprocessor 0 registers (R27 to R32, D4). -/
  layout : Layout
  /-- `Cp0Usable` (R136, D10). -/
  cp0Usable : OpenFn
  /-- `TrapEntry` (R140, D12). -/
  trapEntry : OpenFn
  /-- `Translate` (R52, D6): the two tables that follow, or any other function. -/
  translate : OpenFn
  /-- The table of mappings; where no entry applies the address maps to itself (R52). -/
  maps : List MapEntry
  /-- The table of exceptions; the first entry that applies answers (R52). -/
  faults : List FaultEntry
  /-- `WatchMatch` (R53); the empty table is the default, never. -/
  watches : List WatchEntry
  /-- Where a stack load meets a bus or cache error (R53, R120); the empty table is the default, never. -/
  dataErrors : List DataErrorEntry
deriving DecidableEq, Repr

/-- The parameters of the reset state: those of the conventions of 95_test_vectors (log 1). -/
def Config.initial : Config where
  archRev := 2
  hasMicroMIPS := false
  bigEndianCPU := false
  psize := 32
  iplw := .eight
  eicOption := .option1
  statusWMask := 0xFFFFFFFF
  stkDecBytes := Config.stkDecDefault
  rmwLocked := false
  layout := Layout.standard
  cp0Usable := .standard
  trapEntry := .standard
  translate := .standard
  maps := []
  faults := []
  watches := []
  dataErrors := []

/-- FREE VALUE: the sample the External Interrupt Controller presents when the list of samples in the state is used
up; the argument numbers the draws (R40, U18, log 29). -/
opaque Config.freeEic : Nat → EicSample

/-- FREE VALUE: Context after a TLB exception, from its old value and the failing address. The source says the
address is reflected in it and not in which bits (R131, log 18). -/
opaque Config.freeContext : Word → Word → Word

/-- FREE VALUE: EntryHi after a TLB exception, from its old value and the failing address (R131, log 18). -/
opaque Config.freeEntryHi : Word → Word → Word

end Sys2Proof
end

