-- ==== Sys2Proof/Machine/State.lean ====
section
/-! DEFINITION. The state of the machine (10_state), why a step can stop, and the state right after reset (R44). -/

namespace Sys2Proof.Machine

/-- Why the machine stops with a fault. Every one is safe: the run ends and nothing is claimed of what follows. -/
inductive Fault where
  /-- A Cache Error during a stack load of IRET, under the default exception entry; raised by `takeException`. R140:
  "the model treats a Cache Error as a terminal fault". Safe. -/
  | cacheError (va : Word)
  /-- An interrupt is due at an instruction boundary; raised by `step`. The outcome `InterruptTaken` of R138, since
  no source describes interrupt entry. Safe. -/
  | interruptTaken (ripl : BitVec 8)
deriving DecidableEq, Repr

/-- Why the model declines to say what the hardware does (R18). Every one is safe: no claim passes through it. -/
inductive Refusal where
  /-- An instruction without a meaning; raised by a refused arm of `exec`, of which there is none. Safe. -/
  | notModelled (mnemonic : String)
  /-- ACLR or ASET in a delay slot, UNPREDICTABLE (R97); raised by `atomicBit`. Safe. -/
  | atomicInDelaySlot
  /-- IRET in a delay slot, UNDEFINED (R102); raised by `execIret`. Safe. -/
  | iretInDelaySlot
  /-- IRET without shadow sets or EIC mode enabled, UNDEFINED (R102); raised by `execIret`. Safe. -/
  | iretUndefined
  /-- A register-set number above SRSCtl.HSS about to be written (R100, R22); raised by `iretReturn` and `iretChain`,
  and by `takeException` where the exception entry is not the default. Safe. -/
  | setOutOfRange
  /-- A fetched word that is none of the three instructions (R78); raised by `step`. Safe. -/
  | notInScope (w : Word)
  /-- A fetch with ISAMode 1: the microMIPS encodings are in no source (R81); raised by `fetch`. Safe. -/
  | microMipsFetch
  /-- A fetch of a byte an ACLR or ASET of the run has written (R67); raised by `fetch`. Safe. -/
  | modifiedCode
  /-- Config3.ISAOnExc set on a machine without microMIPS (R112, U8); raised by `step` and `iretChain`. Safe. -/
  | isaOnExcWithoutMicroMips
  /-- A misaligned stack address that also matches a watchpoint (R135, D16); raised by `loadStackWord`. Safe. -/
  | watchOnMisaligned
  /-- The vector number of the arm whose body the source has lost (R115); raised by `iretChain`, and unreachable
  since IRET is refused before it when Config3.VEIC is 0. Safe. -/
  | vectorNumLost
  /-- An exception of a fetch in a delay slot, which R140's default entry does not cover; raised by `takeException`.
  Safe. -/
  | trapInDelaySlot
  /-- An instruction term outside the ranges of R77, which no word decodes to; raised by `atomicBit`. Safe. -/
  | illFormed
deriving DecidableEq, Repr

/-- The state of the machine. INVENTORY.md lists each field with its rule. -/
structure State where
  /-- the address of the instruction being executed (R23) -/
  pc : Word
  /-- ISAMode, meaningful only with microMIPS implemented (R25) -/
  isaMode : Bool
  /-- general registers: shadow set, then register (R20, R22); read and written through `State.xs`, `State.setXs` -/
  gpr : Vector (Vector Word 32) 16
  /-- R27 -/
  status : Word
  /-- R28 -/
  cause : Word
  /-- R29 -/
  srsCtl : Word
  /-- R30 -/
  intCtl : Word
  /-- R31 -/
  ebase : Word
  /-- R32 -/
  config3 : Word
  /-- R33 -/
  epc : Word
  /-- R33 -/
  errorEpc : Word
  /-- R34 -/
  badVAddr : Word
  /-- R34 -/
  context : Word
  /-- R34 -/
  entryHi : Word
  /-- R34; no instruction and no default exception entry writes it, since a Cache Error is then a terminal fault
  (R140) -/
  cacheErr : Word
  /-- LLbit (R38) -/
  llBit : Bool
  /-- memory by physical address, in the canonical form `Memory.wf` (R50, R51) -/
  mem : List Host.Cell
  /-- the physical addresses of the bytes ACLR and ASET have written in this run, strictly rising (R67) -/
  stored : List Nat
  /-- input: the instruction stands in a delay slot (R42) -/
  inDelaySlot : Bool
  /-- input: the samples the External Interrupt Controller will present, next first (R40) -/
  eicIn : List EicSample
  /-- output: the events sent to the External Interrupt Controller, oldest first (R41) -/
  eicAcks : List EicAck
  /-- input: the requested priority at each coming instruction boundary, next first (R138) -/
  irqIn : List (BitVec 8)
  /-- input: the reset-like event at each coming instruction boundary, if any, next first (R160) -/
  resetIn : List (Option ResetEvent)
  /-- the model's own: how many free values have been drawn (log 29, log 49) -/
  freeCount : Nat
  /-- the model's own: the parameters of R5 (log 1) -/
  cfg : Config
deriving DecidableEq, Repr

/-- The state right after reset: R44, with G20's values where it gives them (log 3), the conventions of the test
vectors for the implementation constants (log 6) and 0 where nothing is given (log 4). -/
def State.reset : State where
  pc := 0xBFC00000
  isaMode := false
  gpr := Vector.replicate 16 (Vector.replicate 32 0)
  status := 0x00400004
  cause := 0
  srsCtl := 0x0C000000
  intCtl := 0x00030000
  ebase := 0x80000000
  config3 := 0x00220040
  epc := 0
  errorEpc := 0
  badVAddr := 0
  context := 0
  entryHi := 0
  cacheErr := 0
  llBit := false
  mem := []
  stored := []
  inDelaySlot := false
  eicIn := []
  eicAcks := []
  irqIn := []
  resetIn := []
  freeCount := 0
  cfg := Config.initial

end Sys2Proof.Machine
end

