-- ==== Sys2Proof/Machine/Open.lean ====
section
/-! DEFINITION. The parameters of R5 that are functions of the whole state, and what the spec leaves open of the
reset-like events (R160), as opaque constants: nothing is known of them, so a statement about a state that uses one is
a statement about every such function (log 48, log 49). -/

namespace Sys2Proof.Machine

/-- An exception with what it records (R130, R131): the access that raised it and the failing address, or the
coprocessor number. -/
inductive Exc where
  | tlbRefill (acc : Access) (va : Word)
  | tlbInvalid (acc : Access) (va : Word)
  | tlbModified (va : Word)
  | addressError (acc : Access) (va : Word)
  | watch (va : Word)
  | coprocessorUnusable (cop : BitVec 2)
  | busError (va : Word)
  | cacheError (va : Word)
deriving DecidableEq, Repr

/-- What such a function reads: the whole machine, without the model's own fields (the marks of modified code, the
queues of inputs and outputs still to come or gone, and the count of free values). -/
def State.view (s : State) : State :=
  { s with stored := [], eicIn := [], eicAcks := [], irqIn := [], resetIn := [], freeCount := 0 }

/-- What the entry of an exception and a reset-like event can both leave open: the state of the machine but for the pc,
IntCtl, EBase and Config3, and of SRSCtl the fields CSS, ESS and EICSS alone, since HSS is read-only and the bits
outside the fields are zero (R29). -/
structure Rewritten where
  isaMode : Bool
  gpr : Vector (Vector Word 32) 16
  status : Word
  cause : Word
  css : BitVec 4
  ess : BitVec 4
  eicss : BitVec 4
  epc : Word
  errorEpc : Word
  badVAddr : Word
  context : Word
  entryHi : Word
  cacheErr : Word
  llBit : Bool
  mem : List Host.Cell
deriving DecidableEq, Repr, Inhabited

/-- What an exception entry other than the default leaves. IntCtl and EBase are not in it: nothing in scope writes them
(R30, R31). What the source fixes of any entry (R130, R131, R141) is written over it (`otherEntry`). -/
structure Entered extends Rewritten where
  pc : Word
  pss : BitVec 4
deriving DecidableEq, Repr, Inhabited

/-- What the spec gives no value for after a reset-like event (R44: unspecified). The pc is given, and PSS is not
written (R160); bits 31:30 of EBase are fixed (R31). -/
structure Restarted extends Rewritten where
  intCtl : Word
  ebase : Word
deriving DecidableEq, Repr, Inhabited

end Sys2Proof.Machine

namespace Sys2Proof

/-- FREE VALUE: the physical byte and the coherency attribute a virtual address maps to under the translation of this
number (R52, D6, log 48). -/
opaque Config.freeMapping : Nat → Machine.State → Word → Nat × Nat

/-- FREE VALUE: the exception the translation of this number answers an access with, if any (R52, D6, log 48). -/
opaque Config.freeTransFault : Nat → Machine.State → Word → Access → Option TransFault

/-- FREE VALUE: whether coprocessor 0 is usable under the rule of this number (R136, D10, log 48). -/
opaque Config.freeCp0Usable : Nat → Machine.State → Bool

/-- FREE VALUE: what the exception entry of this number leaves (R140, D12, log 48). -/
opaque Config.freeTrapEntry : Nat → Machine.Exc → Machine.State → Machine.Entered

/-- FREE VALUE: what a reset-like event leaves in the state that R44 calls unspecified; the first argument numbers the
draws (R160, log 49). -/
opaque Config.freeReset : Nat → ResetEvent → Machine.State → Machine.Restarted

end Sys2Proof
end

