-- ==== Sys2Proof/Machine/Flags.lean ====
section
/-! DEFINITION. The machine has no condition flags (R36). This file holds the bit fields of the Coprocessor 0
registers (R27 to R32), each where the parameter `Layout` puts it (R5, D4, log 2), and the modes they select (R136,
R150). -/

namespace Sys2Proof.Machine

/-- `w` with its bits from `lo` up replaced by `v` and every other bit kept: the write of a field (R37). -/
def putField {n : Nat} (w : Word) (lo : Nat) (v : BitVec n) : Word :=
  (w &&& ~~~((BitVec.allOnes n).setWidth 32 <<< lo)) ||| (v.setWidth 32 <<< lo)

/-- `w` with bit `i` replaced by `b` (R37). -/
def putBit (w : Word) (i : Nat) (b : Bool) : Word :=
  putField w i (BitVec.ofBool b)

/-- The first `n` of the eight bits of `w` at the given positions, the first position least significant; above them
0. -/
def gatherBits (pos : Vector Nat 8) (n : Nat) (w : Word) : BitVec 8 :=
  BitVec.ofFnLE fun i => decide (i.val < n) && w.getLsbD pos[i]

/-- `w` with the first `n` of the eight bits at the given positions replaced by the low bits of `v`. -/
def scatterBits (pos : Vector Nat 8) (n : Nat) (w : Word) (v : BitVec 8) : Word :=
  [0, 1, 2, 3, 4, 5, 6, 7].foldl (fun w (i : Fin 8) => if i.val < n then putBit w pos[i] (v.getLsbD i) else w) w

/-- `IPLW` as a number of bits (R5). -/
def iplBitCount (c : Config) : Nat :=
  match c.iplw with
  | .six => 6
  | .eight => 8

/-! Status (R27). -/

/-- Status.IE -/
def statusIe (c : Config) (w : Word) : Bool := w.getLsbD c.layout.ie
/-- Status.EXL -/
def statusExl (c : Config) (w : Word) : Bool := w.getLsbD c.layout.exl
/-- Status.ERL -/
def statusErl (c : Config) (w : Word) : Bool := w.getLsbD c.layout.erl
/-- Status.KSU -/
def statusKsu (c : Config) (w : Word) : BitVec 2 := w.extractLsb' c.layout.ksu 2
/-- Status.BEV -/
def statusBev (c : Config) (w : Word) : Bool := w.getLsbD c.layout.bev
/-- Status.CU0 -/
def statusCu0 (c : Config) (w : Word) : Bool := w.getLsbD c.layout.cu0

/-- The function IPL of R27: the priority field of a Status image, zero-extended to 8 bits. -/
def statusIpl (c : Config) (w : Word) : BitVec 8 :=
  gatherBits c.layout.ipl (iplBitCount c) w

/-- A Status word with its IPL field replaced (R27, R111). -/
def putStatusIpl (c : Config) (w : Word) (v : BitVec 8) : Word :=
  scatterBits c.layout.ipl (iplBitCount c) w v

/-- R37: the write of a whole Status register takes the bits of the mask and keeps the others. -/
def writeStatus (mask old new : Word) : Word :=
  (old &&& ~~~mask) ||| (new &&& mask)

/-- Only the bits of an `IPLW`-bit priority (R40). -/
def clipIpl (c : Config) (v : BitVec 8) : BitVec 8 :=
  match c.iplw with
  | .six => v &&& 0x3F
  | .eight => v

/-! Cause (R28, R140). -/

/-- Cause.IV -/
def causeIv (c : Config) (w : Word) : Bool := w.getLsbD c.layout.iv
/-- Cause.IC -/
def causeIc (c : Config) (w : Word) : Bool := w.getLsbD c.layout.ic
/-- Cause.ExcCode -/
def causeExcCode (c : Config) (w : Word) : BitVec 5 := w.extractLsb' c.layout.excCode 5
/-- Cause.CE -/
def causeCe (c : Config) (w : Word) : BitVec 2 := w.extractLsb' c.layout.ce 2
/-- Cause.BD -/
def causeBd (c : Config) (w : Word) : Bool := w.getLsbD c.layout.bd

/-- Cause.RIPL, zero-extended to 8 bits. -/
def causeRipl (c : Config) (w : Word) : BitVec 8 :=
  gatherBits c.layout.ripl (iplBitCount c) w

/-- A Cause word with its RIPL field replaced (R28, R110). -/
def putCauseRipl (c : Config) (w : Word) (v : BitVec 8) : Word :=
  scatterBits c.layout.ripl (iplBitCount c) w v

/-! SRSCtl (R29). -/

/-- SRSCtl.CSS, the current set -/
def srsCss (c : Config) (w : Word) : BitVec 4 := w.extractLsb' c.layout.css 4
/-- SRSCtl.PSS, the previous set -/
def srsPss (c : Config) (w : Word) : BitVec 4 := w.extractLsb' c.layout.pss 4
/-- SRSCtl.ESS, the set of exceptions -/
def srsEss (c : Config) (w : Word) : BitVec 4 := w.extractLsb' c.layout.ess 4
/-- SRSCtl.EICSS, the set the External Interrupt Controller asks for -/
def srsEicss (c : Config) (w : Word) : BitVec 4 := w.extractLsb' c.layout.eicss 4
/-- SRSCtl.HSS, the highest set -/
def srsHss (c : Config) (w : Word) : BitVec 4 := w.extractLsb' c.layout.hss 4

/-- R22: CSS, PSS, ESS and EICSS are at most SRSCtl.HSS. -/
abbrev setsInRange (c : Config) (srsCtl : Word) : Prop :=
  srsCss c srsCtl ≤ srsHss c srsCtl ∧ srsPss c srsCtl ≤ srsHss c srsCtl ∧
    srsEss c srsCtl ≤ srsHss c srsCtl ∧ srsEicss c srsCtl ≤ srsHss c srsCtl

/-! IntCtl (R30). -/

/-- IntCtl.APE, Auto-Prologue enable -/
def intApe (c : Config) (w : Word) : Bool := w.getLsbD c.layout.ape
/-- IntCtl.ICE, interrupt chaining enable -/
def intIce (c : Config) (w : Word) : Bool := w.getLsbD c.layout.ice
/-- IntCtl.StkDec, the frame size code -/
def intStkDec (c : Config) (w : Word) : BitVec 5 := w.extractLsb' c.layout.stkDec 5
/-- IntCtl.ClrEXL -/
def intClrExl (c : Config) (w : Word) : Bool := w.getLsbD c.layout.clrExl
/-- IntCtl.VS, the vector spacing -/
def intVs (c : Config) (w : Word) : BitVec 5 := w.extractLsb' c.layout.vs 5

/-! Config3 (R32). -/

/-- Config3.VEIC -/
def cfg3Veic (c : Config) (w : Word) : Bool := w.getLsbD c.layout.veic
/-- Config3.ISAOnExc -/
def cfg3IsaOnExc (c : Config) (w : Word) : Bool := w.getLsbD c.layout.isaOnExc
/-- Config3.MCU: the ASE is implemented -/
def cfg3Mcu (c : Config) (w : Word) : Bool := w.getLsbD c.layout.mcu
/-- Config3.ISA: not 0 when microMIPS is implemented -/
def cfg3Isa (c : Config) (w : Word) : BitVec 2 := w.extractLsb' c.layout.isa 2
/-- Config3.IPLW: 0 for six bits of priority, 1 for eight -/
def cfg3Iplw (c : Config) (w : Word) : BitVec 2 := w.extractLsb' c.layout.iplw 2

/-- R32: Config3 tells what the parameters say: `HasMicroMIPS = (Config3.ISA ≠ 0)`, the two codes of `IPLW`, and the
ASE implemented. -/
abbrev config3Agrees (c : Config) (config3 : Word) : Prop :=
  (c.hasMicroMIPS = true ↔ cfg3Isa c config3 ≠ 0) ∧ (cfg3Iplw c config3 = 0 ↔ c.iplw = .six) ∧
    (cfg3Iplw c config3 = 1 ↔ c.iplw = .eight) ∧ cfg3Mcu c config3 = true

/-! Modes (R136, R150). -/

/-- The privilege modes of R150; the value 3 of KSU is reserved (R27). -/
inductive Mode where
  | kernel
  | supervisor
  | user
  | reserved
deriving DecidableEq, Repr

/-- R150: kernel when EXL or ERL is set or KSU is 0, else by KSU. -/
def statusMode (c : Config) (w : Word) : Mode :=
  if statusExl c w || statusErl c w || statusKsu c w == 0 then .kernel
  else if statusKsu c w == 1 then .supervisor
  else if statusKsu c w == 2 then .user
  else .reserved

/-- `Cp0Usable` (R136). By default coprocessor 0 is usable in kernel mode or when Status.CU0 is set. -/
def State.cp0Usable (s : State) : Bool :=
  match s.cfg.cp0Usable with
  | .standard => statusMode s.cfg s.status == .kernel || statusCu0 s.cfg s.status
  | .other n => Config.freeCp0Usable n s.view

/-- R102, D15: shadow register sets are enabled when SRSCtl.HSS is above 0. -/
def State.srsEnabled (s : State) : Bool :=
  decide (0 < srsHss s.cfg s.srsCtl)

/-- R102, D15: the EIC interrupt mode is enabled when Config3.VEIC is 1. -/
def State.eicModeEnabled (s : State) : Bool :=
  cfg3Veic s.cfg s.config3

/-- R101: IRET acts as ERET. -/
def State.actsAsEret (s : State) : Bool :=
  !intApe s.cfg s.intCtl || statusErl s.cfg s.status || statusBev s.cfg s.status

/-- The guard under which SRSCtl's set fields are saved and restored, on the Status given (R103, R108, R140). -/
def State.setsSwitch (s : State) (status : Word) : Bool :=
  decide (2 ≤ s.cfg.archRev) && s.srsEnabled && !statusBev s.cfg status

/-- R112, U8: Config3.ISAOnExc is set and there is no ISAMode to hold it; the model refuses the configuration. -/
def State.isaOnExcUnhoused (s : State) : Bool :=
  cfg3IsaOnExc s.cfg s.config3 && !s.cfg.hasMicroMIPS

end Sys2Proof.Machine
end

