-- ==== Sys2Proof/Machine/Operands.lean ====
section
/-! DEFINITION. Register access (R11, R20 to R22), the one addressing mode (R92), and the jump (R14, R25). -/

namespace Sys2Proof.Machine

/-- `xs[set][r]` of R11; register 0 of every set reads as zero (R21). -/
def State.xs (s : State) (set : BitVec 4) (r : BitVec 5) : Word :=
  if r = 0 then 0 else (s.gpr[set.toNat]'set.isLt)[r.toNat]'r.isLt

/-- `x[r]` of R11: register `r` of the set SRSCtl.CSS selects. -/
def State.x (s : State) (r : BitVec 5) : Word :=
  s.xs (srsCss s.cfg s.srsCtl) r

/-- The registers after `xs[set][r] <- v`; a write to register 0 is ignored (R21). -/
def writeGpr (gpr : Vector (Vector Word 32) 16) (set : BitVec 4) (r : BitVec 5) (v : Word) :
    Vector (Vector Word 32) 16 :=
  if r = 0 then gpr else gpr.set set.toNat ((gpr[set.toNat]'set.isLt).set r.toNat v r.isLt) set.isLt

/-- `xs[set][r] <- v` (R11, R21). -/
def State.setXs (s : State) (set : BitVec 4) (r : BitVec 5) (v : Word) : State :=
  { s with gpr := writeGpr s.gpr set r v }

/-- The effective address of ACLR and ASET: line 1 of R92, modulo 2^32. -/
def State.effAddr (s : State) (base : Nat) (offset : Int) : Word :=
  s.x (BitVec.ofNat 5 base) + BitVec.ofInt 32 offset

/-- R118: the stack frame size in bytes. -/
def State.frameSize (s : State) : Word :=
  s.cfg.stkDecBytes[(intStkDec s.cfg s.intCtl).toNat]'(intStkDec s.cfg s.intCtl).isLt

/-- The pc a jump to `t` gives (R109, R112). -/
def State.jumpPc (s : State) (t : Word) : Word :=
  if s.cfg.hasMicroMIPS then t.extractLsb' 1 31 ++ 0#1 else t

/-- The ISAMode a jump to `t` gives (R109, R112). -/
def State.jumpIsa (s : State) (t : Word) : Bool :=
  if s.cfg.hasMicroMIPS then t.getLsbD 0 else s.isaMode

/-- A jump to `t`: with microMIPS, bit 0 goes to ISAMode (R103, R109, R112). -/
def State.jump (s : State) (t : Word) : State :=
  { s with pc := s.jumpPc t, isaMode := s.jumpIsa t }

/-- Fall through to the next sequential instruction (R14, R24). -/
def State.advance (s : State) : State :=
  { s with pc := s.pc + 4 }

end Sys2Proof.Machine
end

