-- ==== Sys2Proof/Machine/Ops.lean ====
section
/-! DEFINITION. The shared operations: memory (20_memory), translation (R52), the External Interrupt Controller
(R40, R41), the interrupt vector (R114), taking an exception (R140) and instruction fetch (R69, R133). -/

namespace Sys2Proof.Machine

/-! Memory. -/

/-- What a byte of memory that is not listed reads as (log 5). -/
def Memory.unlisted : Byte := 0

/-- The byte at a physical address. -/
def Memory.read : List Host.Cell → Nat → Byte
  | [], _ => Memory.unlisted
  | c :: m, a => if c.1 = a then c.2 else Memory.read m a

/-- The cells with one more, at its place in the rising order. -/
def Memory.insert (a : Nat) (b : Byte) : List Host.Cell → List Host.Cell
  | [] => [(a, b)]
  | c :: m => if a < c.1 then (a, b) :: c :: m else c :: Memory.insert a b m

/-- The memory after writing one byte, in canonical form. -/
def Memory.write (m : List Host.Cell) (a : Nat) (b : Byte) : List Host.Cell :=
  let rest := m.filter (fun c => c.1 ≠ a)
  if b = Memory.unlisted then rest else Memory.insert a b rest

/-- The canonical form: addresses strictly rising, and no cell equal to what an unlisted address reads as. -/
abbrev Memory.wf (m : List Host.Cell) : Prop :=
  m.Pairwise (fun c d => c.1 < d.1) ∧ ∀ c ∈ m, c.2 ≠ Memory.unlisted

/-- The cells, later ones over earlier ones, as a memory in canonical form with addresses of `psize` bits. -/
def Memory.ofCells (psize : Nat) (cells : List Host.Cell) : List Host.Cell :=
  cells.foldl (fun m c => Memory.write m (c.1 % 2 ^ psize) c.2) []

/-- A strictly rising list of addresses with one more. -/
def markStored (a : Nat) : List Nat → List Nat
  | [] => [a]
  | b :: l => if a < b then a :: b :: l else if a = b then b :: l else b :: markStored a l

/-! Translation (R51, R52). -/

/-- An entry of a translation table applies in this state. -/
def condHolds (c : StateCond) (s : State) : Bool :=
  s.status &&& c.statusMask == c.statusMatch && s.entryHi &&& c.entryHiMask == c.entryHiMatch

/-- This mapping applies to the virtual address. -/
def mapApplies (m : MapEntry) (s : State) (va : Word) : Bool :=
  condHolds m.cond s && decide (m.lo ≤ va) && decide (va ≤ m.hi)

/-- This exception answers the access; TLB Modified is for stores only (R52). -/
def faultApplies (f : FaultEntry) (s : State) (va : Word) (acc : Access) : Bool :=
  condHolds f.cond s && decide (f.lo ≤ va) && decide (va ≤ f.hi) && (f.acc.isNone || f.acc == some acc)
    && (f.kind != .tlbModified || acc == .store)

/-- The physical byte and the coherency attribute a virtual address currently maps to, PSIZE bits wide (R51): by the
table of mappings, or by any other function of the whole state (R52). -/
def State.mapping (s : State) (va : Word) : Nat × Nat :=
  match s.cfg.translate with
  | .standard =>
    match s.cfg.maps.find? (fun m => mapApplies m s va) with
    | some m => ((m.pa + (va - m.lo).toNat) % 2 ^ s.cfg.psize, m.cca)
    | none => (va.toNat % 2 ^ s.cfg.psize, 0)
  | .other n => ((Config.freeMapping n s.view va).1 % 2 ^ s.cfg.psize, (Config.freeMapping n s.view va).2)

/-- The physical byte a virtual address currently maps to (R51). -/
def State.phys (s : State) (va : Word) : Nat := (s.mapping va).1

/-- What `Translate` answers (R52). -/
inductive Translation where
  | ok (pa cca : Nat)
  | fault (k : TransFault)
deriving DecidableEq, Repr

/-- The exception `Translate` answers in place of an address, if any: by the table of exceptions, or by any other
function of the whole state; TLB Modified for stores only (R52). -/
def State.transFault (s : State) (va : Word) (acc : Access) : Option TransFault :=
  match s.cfg.translate with
  | .standard => (s.cfg.faults.find? fun f => faultApplies f s va acc).map (·.kind)
  | .other n => (Config.freeTransFault n s.view va acc).filter fun k => k != .tlbModified || acc == .store

/-- `Translate(va, acc)` (R52). -/
def State.translate (s : State) (va : Word) (acc : Access) : Translation :=
  match s.transFault va acc with
  | some k => .fault k
  | none => .ok (s.mapping va).1 (s.mapping va).2

/-- `WatchMatch(va, n, acc)` (R53). -/
def State.watchMatch (s : State) (va : Word) (n : Nat) (acc : Access) : Bool :=
  s.cfg.watches.any fun w =>
    decide (w.lo ≤ va) && decide (va ≤ w.hi) && (w.bytes.isNone || w.bytes == some n)
      && (w.acc.isNone || w.acc == some acc)

/-- The error of the platform a stack load at a physical address meets, if any (R53, D16). -/
def State.dataError (s : State) (pa : Nat) : Option DataErrorKind :=
  (s.cfg.dataErrors.find? fun e => decide (e.lo ≤ pa) && decide (pa ≤ e.hi)).map (·.kind)

/-- `Mem[va]` of R53: the byte the virtual address currently maps to. -/
def State.byteAt (s : State) (va : Word) : Byte :=
  Memory.read s.mem (s.phys va)

/-- `Word(Mem[va], Mem[va+1], Mem[va+2], Mem[va+3])` of R53 and R55. -/
def State.wordAt (s : State) (va : Word) : Word :=
  wordOfBytes s.cfg.bigEndianCPU (s.byteAt va) (s.byteAt (va + 1)) (s.byteAt (va + 2)) (s.byteAt (va + 3))

/-! Exceptions (60_exceptions). -/

/-- The exception `Translate` answered, for this access (R95, R120, R133). -/
def transExc (k : TransFault) (acc : Access) (va : Word) : Exc :=
  match k with
  | .tlbRefill => .tlbRefill acc va
  | .tlbInvalid => .tlbInvalid acc va
  | .tlbModified => .tlbModified va
  | .addressError => .addressError acc va

/-- The numbers of R130: a store's code for a store, a load's for a load and a fetch (R133). -/
def Exc.code : Exc → BitVec 5
  | .tlbRefill .store _ => 3
  | .tlbRefill _ _ => 2
  | .tlbInvalid .store _ => 3
  | .tlbInvalid _ _ => 2
  | .tlbModified _ => 1
  | .addressError .store _ => 5
  | .addressError _ _ => 4
  | .watch _ => 23
  | .coprocessorUnusable _ => 11
  | .busError _ => 7
  | .cacheError _ => 30

/-- The address of a TLB exception, which Context and EntryHi reflect (R131). -/
def Exc.tlbAddr : Exc → Option Word
  | .tlbRefill _ va => some va
  | .tlbInvalid _ va => some va
  | .tlbModified va => some va
  | _ => none

/-- The address BadVAddr takes: that of an address or TLB exception (R131, R140). -/
def Exc.badAddr : Exc → Option Word
  | .addressError _ va => some va
  | e => e.tlbAddr

/-- The vector base of R114 and R140, on the Status given. -/
def State.vectorBase (s : State) (status : Word) : Word :=
  if statusBev s.cfg status then 0xBFC00200
  else if 2 ≤ s.cfg.archRev then s.ebase.extractLsb' 12 20 ++ 0#12
  else 0x80000000

/-- R140: offset 0 for a TLB Refill taken with EXL 0, else 0x180. -/
def trapOffset (c : Config) (e : Exc) (status : Word) : Word :=
  match e with
  | .tlbRefill _ _ => if statusExl c status then 0x180 else 0
  | _ => 0x180

/-- Cause after entry (R140): BD cleared when EXL was 0, the code, and CE for Coprocessor Unusable. -/
def trapCause (c : Config) (e : Exc) (status cause : Word) : Word :=
  let w := putField (if statusExl c status then cause else putBit cause c.layout.bd false) c.layout.excCode e.code
  match e with
  | .coprocessorUnusable cop => putField w c.layout.ce cop
  | _ => w

/-- The entry of an exception that does not set Status.ERL saves CSS in PSS: EXL is 0, and shadow sets are in use by
R140's guard (R141; that reading of "in use" is log 48). -/
def State.savesSet (s : State) : Bool :=
  !statusExl s.cfg s.status && s.setsSwitch s.status

/-- SRSCtl after entry (R140): under the guard, CSS is saved in PSS and takes ESS. -/
def State.trapSrsCtl (s : State) : Word :=
  if s.savesSet then
    putField (putField s.srsCtl s.cfg.layout.pss (srsCss s.cfg s.srsCtl)) s.cfg.layout.css (srsEss s.cfg s.srsCtl)
  else s.srsCtl

/-- EPC after entry (R140): the pc, with ISAMode in bit 0 when there is microMIPS, when EXL was 0. -/
def State.trapEpc (s : State) : Word :=
  if statusExl s.cfg s.status then s.epc
  else if s.cfg.hasMicroMIPS then s.pc.extractLsb' 1 31 ++ BitVec.ofBool s.isaMode
  else s.pc

/-- The default `TrapEntry` of R140: the state after an exception other than Cache Error has been taken, for an
instruction not in a delay slot. Context and EntryHi: R131, log 18. -/
def trapEntry (e : Exc) (s : State) : State :=
  { s with
    epc := s.trapEpc
    srsCtl := s.trapSrsCtl
    cause := trapCause s.cfg e s.status s.cause
    badVAddr := e.badAddr.getD s.badVAddr
    context := (e.tlbAddr.map (Config.freeContext s.context)).getD s.context
    entryHi := (e.tlbAddr.map (Config.freeEntryHi s.entryHi)).getD s.entryHi
    status := putBit s.status s.cfg.layout.exl true
    pc := s.vectorBase s.status + trapOffset s.cfg e s.status
    isaMode := if s.cfg.hasMicroMIPS then cfg3IsaOnExc s.cfg s.config3 else s.isaMode }

/-- The state with what an entry rewrites. SRSCtl is written by fields, so HSS, PSS and the bits outside the fields
stay (R29). -/
def State.rewritten (s : State) (r : Rewritten) : State :=
  { s with
    isaMode := r.isaMode
    gpr := r.gpr
    status := r.status
    cause := r.cause
    srsCtl := putField (putField (putField s.srsCtl s.cfg.layout.css r.css) s.cfg.layout.ess r.ess)
      s.cfg.layout.eicss r.eicss
    epc := r.epc
    errorEpc := r.errorEpc
    badVAddr := r.badVAddr
    context := r.context
    entryHi := r.entryHi
    cacheErr := r.cacheErr
    llBit := r.llBit
    mem := Memory.ofCells s.cfg.psize r.mem }

/-- The exceptions of the core that set Status.ERL and do not save CSS in PSS (R141, R160). -/
def Exc.setsErl : Exc → Bool
  | .cacheError _ => true
  | _ => false

/-- The address BadVAddr takes by any entry: the source says it of IRET's loads, for Address Error, TLB Refill and TLB
Invalid (R131). -/
def Exc.loadAddr : Exc → Option Word
  | .addressError .load va => some va
  | .tlbRefill .load va => some va
  | .tlbInvalid .load va => some va
  | _ => none

/-- Any other `TrapEntry` (R5, R140, D12): whatever it leaves, but that it keeps the fields R28 and R29 give no writer,
Cause.IV and SRSCtl.HSS (log 48); records the code of R130 (R95) and the address of an IRET load (R131); and saves CSS
in PSS where shadow sets are in use, but for a Cache Error, which sets ERL, keeps PSS and has no code (R141, R130). -/
def otherEntry (n : Nat) (e : Exc) (s : State) : State :=
  let r := Config.freeTrapEntry n e s.view
  let t := s.rewritten r.toRewritten
  { t with
    pc := r.pc
    status := if e.setsErl then putBit r.status s.cfg.layout.erl true else r.status
    cause := putBit (if e.setsErl then r.cause else putField r.cause s.cfg.layout.excCode e.code) s.cfg.layout.iv
      (causeIv s.cfg s.cause)
    badVAddr := e.loadAddr.getD r.badVAddr
    srsCtl := if e.setsErl then t.srsCtl
      else putField t.srsCtl s.cfg.layout.pss (if s.savesSet then srsCss s.cfg s.srsCtl else r.pss) }

/-- A set number as it is if it names a register set, else the highest that does (R22, log 49). -/
def clipSet (c : Config) (srsCtl : Word) (v : BitVec 4) : BitVec 4 :=
  if v ≤ srsHss c srsCtl then v else srsHss c srsCtl

/-- Reset, Soft Reset or NMI (R160): Status.ERL is set and SRSCtl.PSS is not written; the pc and BEV, and after Reset
CSS, are R44's (G20); bits 31:30 of EBase are fixed at `10` (R31, G15); the implementation constants HSS and Config3
stay; what R44 calls unspecified is free (log 49). -/
def resetEntry (k : ResetEvent) (s : State) : State :=
  let r := Config.freeReset s.freeCount k s.view
  { s.rewritten { r.toRewritten with
      css := if k = .reset then 0 else clipSet s.cfg s.srsCtl r.css
      ess := clipSet s.cfg s.srsCtl r.ess
      eicss := clipSet s.cfg s.srsCtl r.eicss } with
    pc := 0xBFC00000
    status := putBit (putBit r.status s.cfg.layout.bev true) s.cfg.layout.erl true
    intCtl := r.intCtl
    ebase := putField r.ebase 30 2#2
    freeCount := s.freeCount + 1 }

/-- The outcome of a step of this machine. -/
abbrev Out := Host.Outcome State Fault Refusal

/-- Taking an exception by R140's default entry; a Cache Error is a terminal fault (R140). -/
def takeStandard (e : Exc) (s : State) : Out :=
  if s.inDelaySlot then .refused .trapInDelaySlot
  else match e with
    | .cacheError va => .fault (.cacheError va)
    | e => .next (trapEntry e s)

/-- Taking an exception: by the default entry, or by any other (R140). An entry that leaves a register-set number
above HSS is refused, which keeps the invariant of R22 (log 48). -/
def takeException (e : Exc) (s : State) : Out :=
  match s.cfg.trapEntry with
  | .standard => takeStandard e s
  | .other n =>
    if setsInRange s.cfg (otherEntry n e s).srsCtl then .next (otherEntry n e s) else .refused .setOutOfRange

/-- What an access gives: a value, an exception in its place (R13), or a refusal (R18). -/
inductive Eff (α : Type) where
  | ok (a : α)
  | raise (e : Exc)
  | refuse (r : Refusal)
deriving DecidableEq, Repr

/-- Go on with the value of an access, in a state `s` in which its exception is taken. -/
def Eff.andThen {α : Type} (m : Eff α) (s : State) (k : α → Out) : Out :=
  match m with
  | .ok a => k a
  | .raise e => takeException e s
  | .refuse r => .refused r

/-! Data access. -/

/-- The first two lines of MemRead (R53): Watch, then Translate; answers the physical address. -/
def State.locate (s : State) (va : Word) (n : Nat) (acc : Access) : Eff Nat :=
  if s.watchMatch va n acc then .raise (.watch va)
  else match s.translate va acc with
    | .fault k => .raise (transExc k acc va)
    | .ok pa _ => .ok pa

/-- `MemRead(va, 1, STORE)` (R53). No bus or cache error: ACLR and ASET list none (R95). -/
def State.memReadByte (s : State) (va : Word) : Eff Byte :=
  match s.locate va 1 .store with
  | .ok _ => .ok (s.byteAt va)
  | .raise e => .raise e
  | .refuse r => .refuse r

/-- `MemWrite(va, 1, v)` (R54); the byte is marked as written in this run (R67). -/
def State.memWriteByte (s : State) (va : Word) (v : Byte) : State :=
  { s with mem := Memory.write s.mem (s.phys va) v, stored := markStored (s.phys va) s.stored }

/-- `MemRead(va, 4, LOAD)` (R53), with the errors of the platform. -/
def State.memReadWord (s : State) (va : Word) : Eff Word :=
  match s.locate va 4 .load with
  | .ok pa =>
    match s.dataError pa with
    | some .bus => .raise (.busError va)
    | some .cache => .raise (.cacheError va)
    | none => .ok (s.wordAt va)
  | .raise e => .raise e
  | .refuse r => .refuse r

/-- `LoadStackWord(va)` (R104): alignment before translation. Misaligned and watched is refused (R135). -/
def State.loadStackWord (s : State) (va : Word) : Eff Word :=
  if va.extractLsb' 0 2 = 0 then s.memReadWord va
  else if s.watchMatch va 4 .load then .refuse .watchOnMisaligned
  else .raise (.addressError .load va)

/-- `ClearHazards()` (R15): every write is seen by the next read, so it changes no state. -/
def State.clearHazards (s : State) : State := s

/-! The External Interrupt Controller (R40, R41, D17). -/

/-- The sample presented to an IRET that consults the controller now; RIPL has IPLW bits (R40). -/
def State.eicOut (s : State) : EicSample :=
  let e := s.eicIn.headD (Config.freeEic s.freeCount)
  { e with ripl := clipIpl s.cfg e.ripl }

/-- The state once that sample has been taken: the next IRET gets the next one (D17). -/
def State.eicDrawn (s : State) : State :=
  { s with
    eicIn := s.eicIn.tail
    freeCount := if s.eicIn.isEmpty then s.freeCount + 1 else s.freeCount }

/-- The vector number of R114; `none` is the arm whose body is lost (R115). -/
def vectorNum (c : Config) (config3 cause : Word) (eic : EicSample) : Option (BitVec 8) :=
  if cfg3Veic c config3 then
    match c.eicOption with
    | .option1 => some (causeRipl c cause)
    | .option2 => some eic.vectorNum
    | .option3 => none
  else none

/-- The vector offset of R114; `none` where the lost arm would be needed (R115). -/
def State.vectorOffset (s : State) (eic : EicSample) : Option Word :=
  if !causeIv s.cfg s.cause then some 0x180
  else if statusBev s.cfg s.status || intVs s.cfg s.intCtl == 0 then some 0x200
  else if cfg3Veic s.cfg s.config3 && s.cfg.eicOption == .option3 then some eic.vectorOffset
  else (vectorNum s.cfg s.config3 s.cause eic).map fun n =>
    0x200 + n.setWidth 32 * (intVs s.cfg s.intCtl ++ 0#5).setWidth 32

/-- `CalcIntrptAddress()` (R114): a bitwise OR (R116), then bit 0 set under Config3.ISAOnExc. -/
def State.calcIntrptAddress (s : State) (eic : EicSample) : Option Word :=
  (s.vectorOffset eic).map fun off =>
    let v := s.vectorBase s.status ||| off
    if cfg3IsaOnExc s.cfg s.config3 then v.extractLsb' 1 31 ++ 1#1 else v

/-! What arrives at instruction boundaries (R138, R160). -/

/-- The priority requested at this boundary; 0 asks for nothing (R40). -/
def State.irqRipl (s : State) : BitVec 8 :=
  clipIpl s.cfg (s.irqIn.headD 0)

/-- R138: the condition under which the hardware may take an interrupt here. -/
def State.interruptDue (s : State) : Bool :=
  statusIe s.cfg s.status && !statusExl s.cfg s.status && !statusErl s.cfg s.status
    && decide (statusIpl s.cfg s.status < s.irqRipl)

/-- The reset-like event at this boundary, if any (R160). -/
def State.resetEvent (s : State) : Option ResetEvent :=
  s.resetIn.headD none

/-- The state once this boundary's inputs have been looked at. -/
def State.boundaryPassed (s : State) : State :=
  { s with irqIn := s.irqIn.tail, resetIn := s.resetIn.tail }

/-! Instruction fetch. -/

/-- One of the four bytes at `va` has been written by an ACLR or ASET of this run (R67). -/
def State.wordModified (s : State) (va : Word) : Bool :=
  s.stored.contains (s.phys va) || s.stored.contains (s.phys (va + 1))
    || s.stored.contains (s.phys (va + 2)) || s.stored.contains (s.phys (va + 3))

/-- `Fetch(pc)` (R69) with its exceptions (R133) and refusals (R67, R81). -/
def State.fetch (s : State) : Eff Word :=
  if s.cfg.hasMicroMIPS && s.isaMode then .refuse .microMipsFetch
  else if s.pc.extractLsb' 0 2 = 0 then
    match s.translate s.pc .fetch with
    | .fault k => .raise (transExc k .fetch s.pc)
    | .ok _ _ => if s.wordModified s.pc then .refuse .modifiedCode else .ok (s.wordAt s.pc)
  else .raise (.addressError .fetch s.pc)

/-- The state with a word placed in memory from outside the run, so that its bytes are not modified code. -/
def State.placeWord (s : State) (va w : Word) : State :=
  let (b0, b1, b2, b3) := bytesOfWord s.cfg.bigEndianCPU w
  let p0 := s.phys va
  let p1 := s.phys (va + 1)
  let p2 := s.phys (va + 2)
  let p3 := s.phys (va + 3)
  { s with
    mem := Memory.write (Memory.write (Memory.write (Memory.write s.mem p0 b0) p1 b1) p2 b2) p3 b3
    stored := s.stored.filter fun a => !(a == p0 || a == p1 || a == p2 || a == p3) }

end Sys2Proof.Machine
end

