-- ==== Sys2Proof/Machine/AtomicBit.lean ====
section
/-! DEFINITION. The atomic bit instructions ACLR and ASET (40_atomic_bit). -/

namespace Sys2Proof.Machine

/-- Line 9 of ACLR's Operation (R90, R92): bit `bit` cleared, the other seven kept. -/
def clearBit (bit : Nat) (old : Byte) : Byte :=
  old &&& ((1#8 <<< bit) ^^^ 0xFF#8)

/-- Line 9 of ASET's Operation (R91, R92): bit `bit` set, the other seven kept. -/
def setBit (bit : Nat) (old : Byte) : Byte :=
  old ||| (1#8 <<< bit)

/-- What R90 and R91 share: read the byte at the effective address, change it, write it, fall through. Status.IE is
saved, cleared and restored within the instruction (R94), so one step leaves it as it was. -/
def atomicBit (change : Nat → Byte → Byte) (base bit : Nat) (offset : Int) (s : State) : Out :=
  if s.inDelaySlot then .refused .atomicInDelaySlot
  else if operandsFit base bit offset then
    let va := s.effAddr base offset
    (s.memReadByte va).andThen s fun old => .next (s.memWriteByte va (change bit old)).advance
  else .refused .illFormed

/-- ACLR (R90). -/
def execAclr (base bit : Nat) (offset : Int) (s : State) : Out :=
  atomicBit clearBit base bit offset s

/-- ASET (R91). -/
def execAset (base bit : Nat) (offset : Int) (s : State) : Out :=
  atomicBit setBit base bit offset s

/-! The source's own Operation, with the byte lanes of a 32-bit bus (R92, lines 6 to 11). No meaning uses it: R93
says that its effect is that of the byte operation above. -/

/-- Line 7 of R92: the byte lane of an address, `vAddr[1:0] xor BigEndianCPU^2`. -/
def busLane (be : Bool) (va : Word) : Nat :=
  (va.extractLsb' 0 2 ^^^ (if be then 3 else 0)).toNat

/-- Line 8 of R92: `memword[7+8*byte : 8*byte]`. -/
def laneByte (memword : Word) (lane : Nat) : Byte :=
  memword.extractLsb' (8 * lane) 8

/-- Lines 10 and 11 of R92: the word the byte transaction leaves, only the addressed lane written. -/
def laneStore (memword : Word) (lane : Nat) (b : Byte) : Word :=
  putField memword (8 * lane) b

end Sys2Proof.Machine
end

