-- ==== Sys2Proof/Machine/Iret.lean ====
section
/-! DEFINITION. The interrupt return IRET (41_iret) and the ERET operation it falls back to (R103). -/

namespace Sys2Proof.Machine

/-- Register 29, the stack pointer of IRET. -/
abbrev sp : BitVec 5 := 29

/-- `EretOperation()` (R103). -/
def eretOperation (s : State) : State :=
  let target := if statusErl s.cfg s.status then s.errorEpc else s.epc
  { s with
    status :=
      if statusErl s.cfg s.status then putBit s.status s.cfg.layout.erl false
      else putBit s.status s.cfg.layout.exl false
    srsCtl :=
      if !statusErl s.cfg s.status && s.setsSwitch s.status then
        putField s.srsCtl s.cfg.layout.css (srsPss s.cfg s.srsCtl)
      else s.srsCtl
    pc := s.jumpPc target
    isaMode := s.jumpIsa target
    llBit := false }.clearHazards

/-- `NoChain(tempStatus, eic)` (R106): the priority of the Status image against the controller's. -/
def State.noChain (s : State) (tempStatus : Word) (eic : EicSample) : Bool :=
  !intIce s.cfg s.intCtl || decide (eic.ripl ≤ statusIpl s.cfg tempStatus)

/-- Status on the return path: the image under the write mask (R107), then EXL cleared (R108). -/
def State.returnStatus (s : State) (tempStatus : Word) : Word :=
  putBit (writeStatus s.cfg.statusWMask s.status tempStatus) s.cfg.layout.exl false

/-- SRSCtl on the return path (R108): PSS and ESS from the image, then CSS from PSS under the guard, which reads
the restored Status. -/
def State.returnSrsCtl (s : State) (tempStatus tempSRSCtl : Word) : Word :=
  let w := putField (putField s.srsCtl s.cfg.layout.pss (srsPss s.cfg tempSRSCtl)) s.cfg.layout.ess
    (srsEss s.cfg tempSRSCtl)
  if s.setsSwitch (writeStatus s.cfg.statusWMask s.status tempStatus) then
    putField w s.cfg.layout.css (srsPss s.cfg tempSRSCtl)
  else w

/-- `Status <- tempStatus` and `IretReturnPath` (R107 to R109). The frame is popped in the set current at the start
of IRET; the jump goes to the EPC just restored. -/
def iretReturnPath (tempStatus tempSRSCtl tempEPC : Word) (s : State) : State :=
  { s with
    status := s.returnStatus tempStatus
    gpr := writeGpr s.gpr (srsCss s.cfg s.srsCtl) sp (s.x sp + s.frameSize)
    srsCtl := s.returnSrsCtl tempStatus tempSRSCtl
    epc := tempEPC
    pc := s.jumpPc tempEPC
    isaMode := s.jumpIsa tempEPC
    llBit := false
    cause := putBit s.cause s.cfg.layout.ic false }.clearHazards

/-- Status on the chaining path: the image under the write mask (R107), IPL from Cause.RIPL, and with ClrEXL both
EXL and KSU cleared (R111). -/
def State.chainStatus (s : State) (tempStatus : Word) (eic : EicSample) : Word :=
  let w := putStatusIpl s.cfg (writeStatus s.cfg.statusWMask s.status tempStatus) eic.ripl
  if intClrExl s.cfg s.intCtl then putField (putBit w s.cfg.layout.exl false) s.cfg.layout.ksu 0#2 else w

/-- `Status <- tempStatus` and the first two parts of `IretChainPath` (R107, R110, R111): register 29 is
incremented in the old set, and its old value goes to register 29 of the set that becomes current. -/
def iretChainAccept (tempStatus : Word) (eic : EicSample) (s : State) : State :=
  { s with
    status := s.chainStatus tempStatus eic
    cause := putBit (putCauseRipl s.cfg s.cause eic.ripl) s.cfg.layout.ic true
    srsCtl := putField (putField s.srsCtl s.cfg.layout.eicss eic.ss) s.cfg.layout.css eic.ss
    gpr := writeGpr (writeGpr s.gpr (srsCss s.cfg s.srsCtl) sp (s.x sp + s.frameSize)) eic.ss sp (s.x sp)
    llBit := false
    eicAcks := s.eicAcks ++ [EicAck.mk eic.ripl eic.ss] }.clearHazards

/-- The return path once Status's image is loaded: the other two loads, then the check of the set numbers, then the
writes (R100, R105). -/
def iretReturn (tempStatus : Word) (s : State) : Out :=
  (s.loadStackWord (s.x sp + 8)).andThen s fun tempSRSCtl =>
    (s.loadStackWord (s.x sp)).andThen s fun tempEPC =>
      if srsHss s.cfg s.srsCtl < srsPss s.cfg tempSRSCtl ∨ srsHss s.cfg s.srsCtl < srsEss s.cfg tempSRSCtl then
        .refused .setOutOfRange
      else .next (iretReturnPath tempStatus tempSRSCtl tempEPC s)

/-- The chaining path: the check of the set number (R100), the writes, and the jump to the vector computed on the
state as then written (R112, R114). -/
def iretChain (tempStatus : Word) (eic : EicSample) (s : State) : Out :=
  if srsHss s.cfg s.srsCtl < eic.ss then .refused .setOutOfRange
  else if s.isaOnExcUnhoused then .refused .isaOnExcWithoutMicroMips
  else
    let t := iretChainAccept tempStatus eic s
    match t.calcIntrptAddress eic with
    | none => .refused .vectorNumLost
    | some v => .next (t.jump v)

/-- IRET after its first load (R105, R106). With ICE 0 the controller is not consulted (R121); otherwise one sample
is taken (D17). -/
def iretSelect (tempStatus : Word) (s : State) : Out :=
  if !intIce s.cfg s.intCtl then iretReturn tempStatus s
  else if s.noChain tempStatus s.eicOut then iretReturn tempStatus s.eicDrawn
  else iretChain tempStatus s.eicOut s.eicDrawn

/-- IRET (R100). -/
def execIret (s : State) : Out :=
  if s.inDelaySlot then .refused .iretInDelaySlot
  else if !s.srsEnabled || !s.eicModeEnabled then .refused .iretUndefined
  else if !s.cp0Usable then takeException (.coprocessorUnusable 0) s
  else if s.actsAsEret then .next (eretOperation s)
  else (s.loadStackWord (s.x sp + 4)).andThen s fun tempStatus => iretSelect tempStatus s.clearHazards

end Sys2Proof.Machine
end

