-- ==== Sys2Proof/Machine/Dispatch.lean ====
section
/-! DEFINITION. The one arm of each instruction. -/

namespace Sys2Proof.Machine

/-- What an instruction does, by constructor. -/
def exec (i : Instr) (s : State) : Host.Outcome State Fault Refusal :=
  match i with
  | .aclr base bit offset => Sys2Proof.Machine.execAclr base bit offset s
  | .aset base bit offset => Sys2Proof.Machine.execAset base bit offset s
  | .iret => Sys2Proof.Machine.execIret s

end Sys2Proof.Machine
end

