-- ==== Sys2Proof/Machine/Step.lean ====
section
/-! DEFINITION. One step of the machine: the configuration check (R112, U8), the reset-like events (R160), the interrupt
boundary (R138), fetch (R69), decode (R76) and execution. -/

namespace Sys2Proof.Machine

/-- What a fetched word does: the instruction it decodes to, or the refusal NotInScope (R78). -/
def execWord (w : Word) (s : State) : Out :=
  match decodeWord w with
  | .instr i => exec i s
  | _ => .refused (.notInScope w)

/-- One step. -/
def step (s : State) : Host.Outcome State Fault Refusal :=
  if s.isaOnExcUnhoused then .refused .isaOnExcWithoutMicroMips
  else match s.resetEvent with
    | some k => .next (resetEntry k s.boundaryPassed)
    | none =>
      if s.interruptDue then .fault (.interruptTaken s.irqRipl)
      else s.boundaryPassed.fetch.andThen s.boundaryPassed fun w => execWord w s.boundaryPassed

/-- The state with the word whose low `nbits` bits are those of `w`, and whose other bits are 0, placed at the
program counter (log 41). -/
def State.withFetchWord (s : State) (nbits w : Nat) : State :=
  s.placeWord s.pc (BitVec.ofNat 32 (w % 2 ^ nbits))

end Sys2Proof.Machine
end

