-- ==== Sys2Proof/Safety.lean ====
section
/-! DEFINITION. What the claims are stated in: the invariant of the machine (R22, and the canonical forms of its
lists), and the premises under which an access or a step goes through. -/

namespace Sys2Proof

open Sys2Proof.Machine

/-- Bit `n` of a register lies in the field of `width` bits from `lo` up. -/
abbrev inField (lo width n : Nat) : Prop :=
  lo ≤ n ∧ n < lo + width

/-- The bits of SRSCtl outside its fields are zero (R29). -/
abbrev srsOthersZero (c : Config) (w : Word) : Prop :=
  ∀ n : Fin 32, (∀ f ∈ c.layout.srsCtlFields, ¬ inField f.1 f.2 n) → w.getLsbD n = false

/-- The invariant every step keeps: register-set numbers in range (R22), SRSCtl's other bits zero (R29), memory in its
canonical form, the addresses of modified code strictly rising, every listed address a physical address of PSIZE bits
(R51), Config3 in agreement with the parameters it tells (R32), and bits 31:30 of EBase `10` (R31, general knowledge
G15, log 2). -/
structure StateInv (s : State) : Prop where
  sets : setsInRange s.cfg s.srsCtl
  others : srsOthersZero s.cfg s.srsCtl
  config : config3Agrees s.cfg s.config3
  base : s.ebase.extractLsb' 30 2 = 2
  memory : Memory.wf s.mem
  marks : s.stored.Pairwise (· < ·)
  physical : ∀ c ∈ s.mem, c.1 < 2 ^ s.cfg.psize
  markedPhysical : ∀ a ∈ s.stored, a < 2 ^ s.cfg.psize

/-- The byte access of ACLR and ASET at `va` goes through: no watchpoint, and the translation succeeds (R53). -/
abbrev ByteAccessible (s : State) (va : Word) : Prop :=
  s.watchMatch va 1 .store = false ∧ s.translate va .store = .ok (s.phys va) (s.mapping va).2

/-- The stack load at `va` goes through: aligned, no watchpoint, the translation succeeds, and the platform reports
no error (R53, R104). -/
abbrev WordAccessible (s : State) (va : Word) : Prop :=
  va.extractLsb' 0 2 = 0 ∧ s.watchMatch va 4 .load = false ∧
    s.translate va .load = .ok (s.phys va) (s.mapping va).2 ∧ s.dataError (s.phys va) = none

/-- The three words of the stack frame can be loaded (R119, R162). -/
abbrev FrameAccessible (s : State) : Prop :=
  WordAccessible s (s.x 29 + 4) ∧ WordAccessible s (s.x 29 + 8) ∧ WordAccessible s (s.x 29)

/-- IRET reaches its own rules: R162's list, up to the loads. -/
abbrev IretReady (s : State) : Prop :=
  s.inDelaySlot = false ∧ s.srsEnabled = true ∧ s.eicModeEnabled = true ∧ s.cp0Usable = true ∧
    s.actsAsEret = false

/-- The states in which a fetch, with the boundary before it, answers the word at the pc (R69, R138). -/
abbrev FetchReady (s : State) : Prop :=
  s.isaOnExcUnhoused = false ∧ s.resetEvent = none ∧ s.interruptDue = false ∧
    (s.cfg.hasMicroMIPS && s.isaMode) = false ∧ s.pc.extractLsb' 0 2 = 0 ∧
    s.translate s.pc .fetch = .ok (s.phys s.pc) (s.mapping s.pc).2 ∧ s.wordModified s.pc = false

/-- Bit `n` of Status is a bit of IPL (R27). -/
abbrev isIplBit (c : Config) (n : Nat) : Prop :=
  ∃ i : Fin 8, i.val < iplBitCount c ∧ c.layout.ipl[i] = n

/-- Bit `n` of Cause is a bit of RIPL (R28). -/
abbrev isRiplBit (c : Config) (n : Nat) : Prop :=
  ∃ i : Fin 8, i.val < iplBitCount c ∧ c.layout.ripl[i] = n

/-- The parameters meet what R37, R118 and D7 ask of them: the mask holds IE, EXL, ERL, KSU, BEV and IPL, the fields
the source reads back, and every frame size is a multiple of 4 of at least 12. -/
abbrev SoundConfig (c : Config) : Prop :=
  (∀ n : Fin 32, n.val = c.layout.ie ∨ n.val = c.layout.exl ∨ n.val = c.layout.erl ∨
    inField c.layout.ksu 2 n ∨ n.val = c.layout.bev ∨ isIplBit c n → c.statusWMask.getLsbD n = true) ∧
    ∀ i : Fin 32, 12 ≤ c.stkDecBytes[i] ∧ (c.stkDecBytes[i]).extractLsb' 0 2 = 0

/-- R106 with the image on the stack and the sample presented: the return path is taken. -/
abbrev Returns (s : State) : Prop :=
  intIce s.cfg s.intCtl = false ∨ s.eicOut.ripl ≤ statusIpl s.cfg (s.wordAt (s.x 29 + 4))

/-- R100, R22: the set numbers of the stacked SRSCtl image name register sets. -/
abbrev ImageInRange (s : State) : Prop :=
  srsPss s.cfg (s.wordAt (s.x 29 + 8)) ≤ srsHss s.cfg s.srsCtl ∧
    srsEss s.cfg (s.wordAt (s.x 29 + 8)) ≤ srsHss s.cfg s.srsCtl

/-- IRET takes its return path and completes it (R100 to R109). -/
abbrev ReturnReady (s : State) : Prop :=
  IretReady s ∧ FrameAccessible s ∧ Returns s ∧ ImageInRange s

/-- IRET takes its chaining path and completes it (R100 to R112, U8). -/
abbrev ChainReady (s : State) : Prop :=
  IretReady s ∧ WordAccessible s (s.x 29 + 4) ∧ ¬ Returns s ∧ s.eicOut.ss ≤ srsHss s.cfg s.srsCtl ∧
    s.isaOnExcUnhoused = false

/-! Frames. -/

/-- Every general register of every set reads as before. -/
abbrev SameRegs (s t : State) : Prop :=
  ∀ set r, t.xs set r = s.xs set r

/-- Memory and the marks of modified code are as before. -/
abbrev SameMemory (s t : State) : Prop :=
  t.mem = s.mem ∧ t.stored = s.stored

/-- Every Coprocessor 0 register is as before. -/
abbrev SameCp0 (s t : State) : Prop :=
  t.status = s.status ∧ t.cause = s.cause ∧ t.srsCtl = s.srsCtl ∧ t.epc = s.epc ∧ t.badVAddr = s.badVAddr ∧
    t.context = s.context ∧ t.entryHi = s.entryHi ∧ t.intCtl = s.intCtl ∧ t.ebase = s.ebase ∧
    t.config3 = s.config3 ∧ t.errorEpc = s.errorEpc ∧ t.cacheErr = s.cacheErr

/-- What nothing in scope writes, whatever the exception entry: the registers and fields R28 to R32 give no writer, and
the parameters (R5). -/
abbrev SameFixed (s t : State) : Prop :=
  t.intCtl = s.intCtl ∧ t.ebase = s.ebase ∧ t.config3 = s.config3 ∧ t.cfg = s.cfg ∧
    t.inDelaySlot = s.inDelaySlot ∧ srsHss s.cfg t.srsCtl = srsHss s.cfg s.srsCtl ∧
    causeIv s.cfg t.cause = causeIv s.cfg s.cause

/-- What no instruction and no default exception entry writes: `SameFixed`, ErrorEPC and CacheError (R33, R34). -/
abbrev SameConfiguration (s t : State) : Prop :=
  SameFixed s t ∧ t.errorEpc = s.errorEpc ∧ t.cacheErr = s.cacheErr

/-- `t` is what taking an exception left, in a state that is `s` but for the model's own queues and marks. -/
abbrev TookException (s t : State) : Prop :=
  ∃ e s', s'.view = s.view ∧ s'.stored = s.stored ∧ s'.eicAcks = s.eicAcks ∧ takeException e s' = .next t

/-- `t` is what the reset-like event at this boundary left (R160). -/
abbrev TookReset (s t : State) : Prop :=
  ∃ k, s.resetEvent = some k ∧ t = resetEntry k s.boundaryPassed

/-- What passes between the core and the External Interrupt Controller is as before. -/
abbrev SameEic (s t : State) : Prop :=
  t.eicIn = s.eicIn ∧ t.eicAcks = s.eicAcks ∧ t.freeCount = s.freeCount

end Sys2Proof
end

