-- ==== Sys2Proof/Certificates/Slice0/Obligations.lean ====
section
/-! DEFINITION. The statements for the provers. Each docstring names the rule it formalises. Where a clause rests on
a sentence the spec marks as general knowledge, a decision or a derivation, the docstring names the mark and the
entry of the assumption log. -/

open Sys2Proof Sys2Proof.Machine

/-! Encoding (30_encoding). -/

/-- Decoding the word, or the bytes in either byte order, of a well-formed instruction gives it back (section V.1's
round trip, marked as derived from R76 and R77). -/
def Obligations.DecodeOfEncode : Prop :=
  ∀ i : Instr, i.WellFormed →
    decodeWord (encode i) = .instr i ∧ ∀ be, decodeBytes be (encodeBytes be i) = .instr i

/-- A word that decodes to an instruction is that instruction's encoding, and the instruction is well formed (R76:
every value of the operand fields is valid, and no bit is dropped). -/
def Obligations.EncodeOfDecode : Prop :=
  ∀ (w : Word) (i : Instr), decodeWord w = .instr i → i.WellFormed ∧ encode i = w

/-- R76: the conditions on the fields, the masks and matches, that each selects its instruction with the operands of
its fields, and that no word matches two patterns. -/
def Obligations.OpcodeMapSelects : Prop :=
  ∀ w : Word,
    (w &&& 0xFC1F8000 = 0x04070000 ↔
      w.extractLsb' 26 6 = 0b000001#6 ∧ w.extractLsb' 16 5 = 0b00111#5 ∧ w.getLsbD 15 = false) ∧
    (w &&& 0xFC1F8000 = 0x04078000 ↔
      w.extractLsb' 26 6 = 0b000001#6 ∧ w.extractLsb' 16 5 = 0b00111#5 ∧ w.getLsbD 15 = true) ∧
    (w &&& 0xFFFFFFFF = 0x42000038 ↔ w = 0x42000038) ∧
    (w &&& 0xFC1F8000 = 0x04070000 → decodeWord w =
      .instr (.aclr (w.extractLsb' 21 5).toNat (w.extractLsb' 12 3).toNat (w.extractLsb' 0 12).toInt)) ∧
    (w &&& 0xFC1F8000 = 0x04078000 → decodeWord w =
      .instr (.aset (w.extractLsb' 21 5).toNat (w.extractLsb' 12 3).toNat (w.extractLsb' 0 12).toInt)) ∧
    (w = 0x42000038 → decodeWord w = .instr .iret) ∧
    ¬ (w &&& 0xFC1F8000 = 0x04070000 ∧ w &&& 0xFC1F8000 = 0x04078000) ∧
    ¬ (w &&& 0xFC1F8000 = 0x04070000 ∧ w = 0x42000038) ∧ ¬ (w &&& 0xFC1F8000 = 0x04078000 ∧ w = 0x42000038)

/-- R74: the decoded offset is the sign extension of the low 12 bits, from -2048 to 2047, neither scaled nor shifted,
and is added to the base register. -/
def Obligations.OffsetIsSignExtended : Prop :=
  ∀ (w : Word) (base bit : Nat) (offset : Int),
    decodeWord w = .instr (.aclr base bit offset) ∨ decodeWord w = .instr (.aset base bit offset) →
      BitVec.ofInt 32 offset = (w.extractLsb' 0 12).signExtend 32 ∧ -2048 ≤ offset ∧ offset ≤ 2047 ∧
        ∀ s : State, s.effAddr base offset = s.x (w.extractLsb' 21 5) + (w.extractLsb' 0 12).signExtend 32

/-- R79: the near misses are refused by the decoder (the refusal itself is the spec's decision D11, log 24). -/
def Obligations.NearMissesAreRefused : Prop :=
  ∀ w : Word,
    (w.extractLsb' 26 6 = 0b000001#6 ∧ w.extractLsb' 16 5 ≠ 0b00111#5) ∨
    (w.extractLsb' 26 6 = 0b010000#6 ∧ w.getLsbD 25 = true ∧ w.extractLsb' 0 6 = 0b111000#6 ∧
      w.extractLsb' 6 19 ≠ 0) ∨
    (w.extractLsb' 26 6 = 0b010000#6 ∧ w.getLsbD 25 = true ∧ w.extractLsb' 6 19 = 0 ∧
      w.extractLsb' 0 6 ≠ 0b111000#6) ∨
    (w.extractLsb' 26 6 = 0b010000#6 ∧ w.getLsbD 25 = false) →
      decodeWord w = .notInScope w

/-- Words written out from R71 and R72 (the vectors V1, V2, V4 to V7, V9, V11 of 95_test_vectors) decode to the
instructions they stand for. -/
def Obligations.SpecWordsDecode : Prop :=
  decodeWord 0x04873010 = .instr (.aclr 4 3 16) ∧ decodeWord 0x0487B010 = .instr (.aset 4 3 16) ∧
  decodeWord 0x04A70FFF = .instr (.aclr 5 0 (-1)) ∧ decodeWord 0x07E77800 = .instr (.aclr 31 7 (-2048)) ∧
  decodeWord 0x040787FF = .instr (.aset 0 0 2047) ∧ decodeWord 0x07A7DFFC = .instr (.aset 29 5 (-4)) ∧
  decodeWord 0x07E7FFFF = .instr (.aset 31 7 (-1)) ∧ decodeWord 0x42000038 = .instr .iret

/-! Reset (R44, R160). -/

/-- After reset Status.ERL is 1 and IRET would act as ERET (R44, R160). Kernel mode is the spec's general knowledge G25
(log 26), register 0 reading zero is G7 (log 7), and the pc at 0xBFC00000, Status.BEV = 1 and SRSCtl.CSS = 0 are G20
(log 3). -/
def Obligations.ResetState : Prop :=
  statusErl State.reset.cfg State.reset.status = true ∧ State.reset.actsAsEret = true ∧
  statusMode State.reset.cfg State.reset.status = .kernel ∧ (∀ set, State.reset.xs set 0 = 0) ∧
  State.reset.pc = 0xBFC00000 ∧ statusBev State.reset.cfg State.reset.status = true ∧
  srsCss State.reset.cfg State.reset.srsCtl = 0

/-- The reset state meets the invariant, and its parameters meet what the spec asks of them (R37's mask, R118's frame
sizes). All of it rests on the model's choices: the parameters (log 1), the layout (log 2), CSS and ESS 0 (the spec's
general knowledge G20, log 3), PSS and EICSS 0 (log 4), empty memory (log 5), HSS and Config3 (log 6), EBase (G20, log
3; that its bits 31:30 are fixed at `10` is G15, R31, log 2). -/
def Obligations.ResetMeetsInvariant : Prop :=
  StateInv State.reset ∧ SoundConfig State.reset.cfg

/-! A step. -/

/-- A step runs the decoded instruction: where no reset-like event arrives, no interrupt is due and the fetch goes
through, the step is exec of the instruction at the pc, on the state with this boundary's inputs looked at (R69, R76;
log 20, log 31, log 49). -/
def Obligations.StepRunsTheDecodedInstruction : Prop :=
  ∀ (s : State) (i : Instr), FetchReady s → decodeWord (s.wordAt s.pc) = .instr i →
    i.WellFormed ∧ step s = exec i { s with irqIn := s.irqIn.tail, resetIn := s.resetIn.tail }

/-- A fetched word that is none of the three instructions is refused by name, and not trapped (R134; the spec's
decision D11, log 24). -/
def Obligations.StepRefusesOtherWords : Prop :=
  ∀ s : State, FetchReady s → (∀ i, decodeWord (s.wordAt s.pc) ≠ .instr i) →
    step s = .refused (.notInScope (s.wordAt s.pc))

/-- A fetch with ISAMode 1 is refused, on a machine with microMIPS (the spec's decision D2, log 22). -/
def Obligations.MicroMipsFetchIsRefused : Prop :=
  ∀ s : State, s.isaOnExcUnhoused = false → s.resetEvent = none → s.interruptDue = false →
    s.cfg.hasMicroMIPS = true → s.isaMode = true → step s = .refused .microMipsFetch

/-- Config3.ISAOnExc set without microMIPS is a refused configuration: every step refuses it, and so does an IRET that
chains, where its set number is in range (R112's last case; the spec's decision D19 and U8, log 23). -/
def Obligations.UnhousedIsaOnExcIsRefused : Prop :=
  ∀ s : State, cfg3IsaOnExc s.cfg s.config3 = true → s.cfg.hasMicroMIPS = false →
    step s = .refused .isaOnExcWithoutMicroMips ∧
    (IretReady s → WordAccessible s (s.x 29 + 4) → ¬ Returns s → s.eicOut.ss ≤ srsHss s.cfg s.srsCtl →
      exec .iret s = .refused .isaOnExcWithoutMicroMips)

/-- The byte an ACLR or ASET writes is marked, the mark stays through every later step of the run, and a fetch, at an
aligned pc whose translation goes through, of a word that holds a marked byte is refused (R67; the spec's decision D9,
log 21). -/
def Obligations.FetchOfModifiedByteIsRefused : Prop :=
  (∀ (base bit : Nat) (offset : Int) (s t : State) (i : Instr),
    i ∈ [Instr.aclr base bit offset, Instr.aset base bit offset] → exec i s = .next t →
    ByteAccessible s (s.effAddr base offset) → s.phys (s.effAddr base offset) ∈ t.stored) ∧
  (∀ s t : State, step s = .next t → ∀ a ∈ s.stored, a ∈ t.stored) ∧
  ∀ (s : State) (k : Word), FetchReady { s with stored := [] } → k < 4 → s.phys (s.pc + k) ∈ s.stored →
    step s = .refused .modifiedCode

/-- A fetch at a misaligned pc takes an Address Error: the step is the entry of that exception, in the state with this
boundary's inputs looked at (R133). Under the default entry it has the load code, BadVAddr is the pc, and no register
and no memory byte changes (the spec's general knowledge G30, log 17, log 20; the number 4 is G26, log 47). -/
def Obligations.MisalignedFetchTraps : Prop :=
  ∀ s : State, s.isaOnExcUnhoused = false → s.resetEvent = none → s.interruptDue = false →
    (s.cfg.hasMicroMIPS && s.isaMode) = false → s.pc.extractLsb' 0 2 ≠ 0 →
    step s = takeException (.addressError .fetch s.pc) s.boundaryPassed ∧
    (s.cfg.trapEntry = .standard → s.inDelaySlot = false →
      ∃ t, t = trapEntry (.addressError .fetch s.pc) s.boundaryPassed ∧ step s = .next t ∧
        t.badVAddr = s.pc ∧ causeExcCode s.cfg t.cause = 4 ∧ statusExl s.cfg t.status = true ∧
        SameRegs s t ∧ SameMemory s t ∧ t.llBit = s.llBit ∧ SameConfiguration s t ∧ SameEic s t)

/-- A fetch at an aligned pc whose translation fails takes that exception, R133's other case: the step is its entry, in
the state with this boundary's inputs looked at. Under the default entry it has a load's code (2 for TLB Refill and
TLB Invalid, 4 for Address Error: R130's numbers, general knowledge G26, log 47) and BadVAddr is the pc (general
knowledge G30, log 17, log 20). -/
def Obligations.FetchTranslationTraps : Prop :=
  ∀ (s : State) (k : TransFault), s.isaOnExcUnhoused = false → s.resetEvent = none → s.interruptDue = false →
    (s.cfg.hasMicroMIPS && s.isaMode) = false → s.pc.extractLsb' 0 2 = 0 → s.translate s.pc .fetch = .fault k →
    k ≠ .tlbModified ∧ step s = takeException (transExc k .fetch s.pc) s.boundaryPassed ∧
    (s.cfg.trapEntry = .standard → s.inDelaySlot = false →
      ∃ t, t = trapEntry (transExc k .fetch s.pc) s.boundaryPassed ∧ step s = .next t ∧
        t.badVAddr = s.pc ∧ causeExcCode s.cfg t.cause = (if k = .addressError then 4 else 2) ∧
        statusExl s.cfg t.status = true ∧
        SameRegs s t ∧ SameMemory s t ∧ t.llBit = s.llBit ∧ SameConfiguration s t ∧ SameEic s t)

/-- At a boundary with a request of higher priority than Status.IPL, IE 1, EXL 0 and ERL 0, the run ends in the
fault InterruptTaken; without a request, with one that is not above Status.IPL (an equal one among them), or with IE
0, EXL 1 or ERL 1 no interrupt is due and the step never ends so (R138's recommended treatment; the condition is general
knowledge G32, log 31). -/
def Obligations.InterruptEndsTheRun : Prop :=
  (∀ (s : State) (r : BitVec 8) (rest : List (BitVec 8)), s.isaOnExcUnhoused = false → s.resetEvent = none →
    s.irqIn = r :: rest →
    statusIe s.cfg s.status = true → statusExl s.cfg s.status = false → statusErl s.cfg s.status = false →
    statusIpl s.cfg s.status < clipIpl s.cfg r →
    step s = .fault (.interruptTaken (clipIpl s.cfg r))) ∧
  ∀ s : State,
    s.irqIn = [] ∨ (∃ r rest, s.irqIn = r :: rest ∧ clipIpl s.cfg r ≤ statusIpl s.cfg s.status) ∨
      statusIe s.cfg s.status = false ∨ statusExl s.cfg s.status = true ∨ statusErl s.cfg s.status = true →
    s.interruptDue = false ∧ ∀ q, step s ≠ .fault (.interruptTaken q)

/-- A Reset, Soft Reset or NMI at a boundary is taken before an interrupt and before the fetch: Status.ERL is set and
SRSCtl.PSS is not written (R160). The pc, BEV and, after Reset, CSS 0 are R44's, general knowledge G20 (log 3); the
mode is kernel (G25, log 26) and IRET would act as ERET. HSS, Config3 and the parameters stay. The other set numbers
name register sets, the marks of modified code and what passes to and from the controller stay, and memory is
canonical: these are the model's (log 49). Bits 31:30 of EBase are fixed at `10` (R31, general knowledge G15, log 2).
Everything else is free. -/
def Obligations.ResetEventIsTaken : Prop :=
  ∀ (s : State) (k : ResetEvent), s.isaOnExcUnhoused = false → s.resetEvent = some k →
    ∃ t, step s = .next t ∧
      statusErl s.cfg t.status = true ∧ srsPss s.cfg t.srsCtl = srsPss s.cfg s.srsCtl ∧
      t.ebase.extractLsb' 30 2 = 2 ∧
      t.pc = 0xBFC00000 ∧ statusBev s.cfg t.status = true ∧ (k = .reset → srsCss s.cfg t.srsCtl = 0) ∧
      statusMode s.cfg t.status = .kernel ∧ t.actsAsEret = true ∧ (∀ set, t.xs set 0 = 0) ∧
      srsHss s.cfg t.srsCtl = srsHss s.cfg s.srsCtl ∧ t.config3 = s.config3 ∧ t.cfg = s.cfg ∧
      srsCss s.cfg t.srsCtl ≤ srsHss s.cfg s.srsCtl ∧ srsEss s.cfg t.srsCtl ≤ srsHss s.cfg s.srsCtl ∧
      srsEicss s.cfg t.srsCtl ≤ srsHss s.cfg s.srsCtl ∧
      t.stored = s.stored ∧ t.inDelaySlot = s.inDelaySlot ∧ t.eicIn = s.eicIn ∧ t.eicAcks = s.eicAcks ∧
      t.irqIn = s.irqIn.tail ∧ t.resetIn = s.resetIn.tail ∧ Memory.wf t.mem

/-! ACLR and ASET (40_atomic_bit). -/

/-- R90: where the access goes through, ACLR clears the one bit of the byte at the effective address and keeps the
other seven; every other byte, every register and every Coprocessor 0 register stays. The byte is the physical byte
the address maps to when the instruction starts. The next pc is pc + 4 (the spec's decision D3, log 9). -/
def Obligations.AclrClearsTheBit : Prop :=
  ∀ (base bit : Nat) (offset : Int) (s : State), s.inDelaySlot = false → operandsFit base bit offset →
    ByteAccessible s (s.effAddr base offset) →
    ∃ t, exec (.aclr base bit offset) s = .next t ∧
      (∀ j, (Memory.read t.mem (s.phys (s.effAddr base offset))).getLsbD j =
        (decide (j ≠ bit) && (s.byteAt (s.effAddr base offset)).getLsbD j)) ∧
      t.pc = s.pc + 4 ∧ t.isaMode = s.isaMode ∧
      (∀ a, a ≠ s.phys (s.effAddr base offset) → Memory.read t.mem a = Memory.read s.mem a) ∧
      SameRegs s t ∧ SameCp0 s t ∧ t.llBit = s.llBit ∧ SameEic s t

/-- R91: as ACLR, the one bit set. -/
def Obligations.AsetSetsTheBit : Prop :=
  ∀ (base bit : Nat) (offset : Int) (s : State), s.inDelaySlot = false → operandsFit base bit offset →
    ByteAccessible s (s.effAddr base offset) →
    ∃ t, exec (.aset base bit offset) s = .next t ∧
      (∀ j, (Memory.read t.mem (s.phys (s.effAddr base offset))).getLsbD j =
        (decide (j = bit) || (s.byteAt (s.effAddr base offset)).getLsbD j)) ∧
      t.pc = s.pc + 4 ∧ t.isaMode = s.isaMode ∧
      (∀ a, a ≠ s.phys (s.effAddr base offset) → Memory.read t.mem a = Memory.read s.mem a) ∧
      SameRegs s t ∧ SameCp0 s t ∧ t.llBit = s.llBit ∧ SameEic s t

/-- The frame of ACLR and ASET whenever they answer a next state. Where the access goes through: no register, no
Coprocessor 0 register, not LLbit, nothing towards the External Interrupt Controller, every byte but the addressed one.
Where it does not, an exception is taken, and the default entry changes no register, no byte, not LLbit and none of the
configuration (R90, R91, R139; the entry is general knowledge G30, log 17). That an entry other than the default keeps
IntCtl, EBase, Config3, HSS, Cause.IV and the marks is the model's choice (log 48). -/
def Obligations.AtomicLeavesTheRestAlone : Prop :=
  ∀ (base bit : Nat) (offset : Int) (s t : State) (i : Instr),
    i ∈ [Instr.aclr base bit offset, Instr.aset base bit offset] → exec i s = .next t →
    (ByteAccessible s (s.effAddr base offset) →
      SameRegs s t ∧ SameCp0 s t ∧ t.llBit = s.llBit ∧ SameEic s t ∧ SameConfiguration s t ∧
      ∀ a, a ≠ s.phys (s.effAddr base offset) → Memory.read t.mem a = Memory.read s.mem a) ∧
    (¬ ByteAccessible s (s.effAddr base offset) → SameEic s t ∧ SameFixed s t ∧ t.stored = s.stored ∧
      (s.cfg.trapEntry = .standard →
        SameRegs s t ∧ SameMemory s t ∧ t.llBit = s.llBit ∧ SameConfiguration s t))

/-- R97: ACLR or ASET in a delay slot is refused with AtomicInDelaySlot, never a next state. -/
def Obligations.AtomicInDelaySlotIsRefused : Prop :=
  ∀ (base bit : Nat) (offset : Int) (s : State) (i : Instr),
    i ∈ [Instr.aclr base bit offset, Instr.aset base bit offset] → s.inDelaySlot = true →
    exec i s = .refused .atomicInDelaySlot ∧ ∀ t, exec i s ≠ .next t

/-- R95: Watch and the four exceptions of the one translation, each taken before the byte is written: the instruction
is the entry of that exception in the state it started in. That Watch comes first, whatever the translation answers, is
not R95's: it is the spec's own decision D16 (R53 of 20_memory section 3, R135 of 60_exceptions section 2; log 14). What
the default entry then records (the code, BadVAddr for these instructions) is general knowledge G26, G30 (log 17, log
47). -/
def Obligations.AtomicRaises : Prop :=
  ∀ (base bit : Nat) (offset : Int) (s : State) (i : Instr) (e : Exc),
    i ∈ [Instr.aclr base bit offset, Instr.aset base bit offset] → s.inDelaySlot = false →
    operandsFit base bit offset →
    (s.watchMatch (s.effAddr base offset) 1 .store = true ∧ e = .watch (s.effAddr base offset)) ∨
      (∃ k, s.watchMatch (s.effAddr base offset) 1 .store = false ∧
        s.translate (s.effAddr base offset) .store = .fault k ∧ e = transExc k .store (s.effAddr base offset)) →
    exec i s = takeException e s ∧
    (s.cfg.trapEntry = .standard →
      ∃ t, t = trapEntry e s ∧ exec i s = .next t ∧ statusExl s.cfg t.status = true ∧
        causeExcCode s.cfg t.cause =
          (match e with | .watch _ => 23 | .tlbModified _ => 1 | .addressError _ _ => 5 | _ => 3) ∧
        t.badVAddr =
          (if s.watchMatch (s.effAddr base offset) 1 .store then s.badVAddr else s.effAddr base offset) ∧
        SameRegs s t ∧ SameMemory s t ∧ t.llBit = s.llBit)

/-- R93 (marked as derived from R92 and R55): in either byte order, the bus lane of an address holds the byte of the
word at that address, and storing to the lane replaces that byte and no other. -/
def Obligations.BusLaneIsTheAddressedByte : Prop :=
  ∀ (be : Bool) (va : Word) (b : Fin 4 → Byte) (v : Byte),
    laneByte (wordOfBytes be (b 0) (b 1) (b 2) (b 3)) (busLane be va) = b (va.extractLsb' 0 2).toFin ∧
    laneStore (wordOfBytes be (b 0) (b 1) (b 2) (b 3)) (busLane be va) v =
      (let c := Function.update b (va.extractLsb' 0 2).toFin v
       wordOfBytes be (c 0) (c 1) (c 2) (c 3))

/-- R94: Status.IE ends with the value it had at the start, in a raising ACLR or ASET too under the default exception
entry (the second half is the spec's decision D18, log 39). -/
def Obligations.StatusIeIsKept : Prop :=
  ∀ (base bit : Nat) (offset : Int) (s t : State) (i : Instr),
    i ∈ [Instr.aclr base bit offset, Instr.aset base bit offset] → exec i s = .next t →
    ByteAccessible s (s.effAddr base offset) ∨ s.cfg.trapEntry = .standard →
    statusIe s.cfg t.status = statusIe s.cfg s.status

/-- Two of these instructions on different bits of one byte compose, in either order, to the same state (R98's row,
marked as derived from R90 and R91), where the first of the two leaves the translation of the address as it was. -/
def Obligations.DifferentBitsCommute : Prop :=
  ∀ (base j k : Nat) (offset : Int) (s : State) (p q : Bool), s.inDelaySlot = false →
    operandsFit base j offset → operandsFit base k offset → j ≠ k → ByteAccessible s (s.effAddr base offset) →
    let op := fun (set : Bool) (bit : Nat) =>
      if set then Instr.aset base bit offset else Instr.aclr base bit offset
    ∃ t t', exec (op p j) s = .next t ∧ exec (op q k) s = .next t' ∧
      (t.translate (s.effAddr base offset) .store = s.translate (s.effAddr base offset) .store →
        t'.translate (s.effAddr base offset) .store = s.translate (s.effAddr base offset) .store →
        ∃ u, exec (op q k) t = .next u ∧ exec (op p j) t' = .next u)

/-- R56 (marked as derived): the aligned word that holds the byte ACLR or ASET changed shows the new bit at position
8*(a[1:0] xor BigEndianCPU^2) + bit, and no other bit changed. The four bytes of the word are different physical
bytes, which the word's addresses map to afterwards too. -/
def Obligations.StackWordSeesTheBit : Prop :=
  ∀ (base bit : Nat) (offset : Int) (s : State) (p : Bool), s.inDelaySlot = false → operandsFit base bit offset →
    ByteAccessible s (s.effAddr base offset) →
    ([0, 1, 2, 3].map fun m : Word => s.phys ((s.effAddr base offset &&& 0xFFFFFFFC) + m)).Nodup →
    ∃ t, exec (if p then Instr.aset base bit offset else Instr.aclr base bit offset) s = .next t ∧
      ((∀ m ∈ ([0, 1, 2, 3] : List Word), t.phys ((s.effAddr base offset &&& 0xFFFFFFFC) + m) =
          s.phys ((s.effAddr base offset &&& 0xFFFFFFFC) + m)) →
        ∀ n, (t.wordAt (s.effAddr base offset &&& 0xFFFFFFFC)).getLsbD n =
          if n = 8 * ((s.effAddr base offset).extractLsb' 0 2 ^^^ (if s.cfg.bigEndianCPU then 3 else 0)).toNat + bit
          then p else (s.wordAt (s.effAddr base offset &&& 0xFFFFFFFC)).getLsbD n)

/-! IRET (41_iret). -/

/-- R102: IRET is refused in a delay slot, and where shadow sets or the EIC mode are not enabled, before any other
test (what "enabled" means is the spec's decision D15, log 25). -/
def Obligations.IretUndefinedIsRefused : Prop :=
  ∀ s : State,
    (s.inDelaySlot = true → exec .iret s = .refused .iretInDelaySlot) ∧
    (s.inDelaySlot = false → srsHss s.cfg s.srsCtl = 0 ∨ cfg3Veic s.cfg s.config3 = false →
      exec .iret s = .refused .iretUndefined)

/-- Where coprocessor 0 is not usable, IRET is the entry of Coprocessor Unusable, for coprocessor 0, in the state it
started in, and writes nothing else (R120). By default it is usable in kernel mode or with Status.CU0 1 (R136, general
knowledge G25, log 26). What the default entry records is general knowledge G30 (log 17), and the number 11 of the
code is R130's, general knowledge G26 (log 47). -/
def Obligations.IretNeedsCoprocessorZero : Prop :=
  ∀ s : State,
    (s.cfg.cp0Usable = .standard →
      (s.cp0Usable = true ↔ statusKsu s.cfg s.status = 0 ∨ statusExl s.cfg s.status = true ∨
        statusErl s.cfg s.status = true ∨ statusCu0 s.cfg s.status = true)) ∧
    (s.inDelaySlot = false → s.srsEnabled = true → s.eicModeEnabled = true → s.cp0Usable = false →
      exec .iret s = takeException (.coprocessorUnusable 0) s ∧
      (s.cfg.trapEntry = .standard →
        ∃ t, t = trapEntry (.coprocessorUnusable 0) s ∧ exec .iret s = .next t ∧
          causeExcCode s.cfg t.cause = 11 ∧ causeCe s.cfg t.cause = 0 ∧ statusExl s.cfg t.status = true ∧
          t.badVAddr = s.badVAddr ∧ SameRegs s t ∧ SameMemory s t ∧ t.llBit = s.llBit ∧ SameEic s t))

/-- With APE 0, ERL 1 or BEV 1 at the start IRET acts as ERET (R101): it reads no memory and consults no controller
(it completes whatever the stack and the controller hold), and leaves registers, Cause, SRSCtl.EICSS, BadVAddr,
Context, EntryHi and memory alone (R34, R35). The state it leaves is that of the ERET operation, whose body is the
spec's general knowledge G27 (R103, log 27 PRESUMED). -/
def Obligations.IretActsAsEret : Prop :=
  ∀ s : State, s.inDelaySlot = false → s.srsEnabled = true → s.eicModeEnabled = true → s.cp0Usable = true →
    intApe s.cfg s.intCtl = false ∨ statusErl s.cfg s.status = true ∨ statusBev s.cfg s.status = true →
    exec .iret s = .next (eretOperation s) ∧
      SameRegs s (eretOperation s) ∧ (eretOperation s).cause = s.cause ∧
      srsEicss s.cfg (eretOperation s).srsCtl = srsEicss s.cfg s.srsCtl ∧ SameMemory s (eretOperation s) ∧
      SameEic s (eretOperation s) ∧ (eretOperation s).badVAddr = s.badVAddr ∧
      (eretOperation s).context = s.context ∧ (eretOperation s).entryHi = s.entryHi

/-- The ERET operation (R103's body, general knowledge G27, log 27): with ERL the return is to ErrorEPC and ERL is
cleared, else to EPC, EXL is cleared, and CSS takes PSS under the guard; LLbit is cleared. -/
def Obligations.EretOperationReturns : Prop :=
  ∀ s : State,
    (eretOperation s).llBit = false ∧ (eretOperation s).epc = s.epc ∧
    (s.cfg.hasMicroMIPS = false →
      (eretOperation s).pc = (if statusErl s.cfg s.status then s.errorEpc else s.epc) ∧
      (eretOperation s).isaMode = s.isaMode) ∧
    (s.cfg.hasMicroMIPS = true →
      (eretOperation s).pc = (if statusErl s.cfg s.status then s.errorEpc else s.epc) &&& 0xFFFFFFFE ∧
      (eretOperation s).isaMode = (if statusErl s.cfg s.status then s.errorEpc else s.epc).getLsbD 0) ∧
    (statusErl s.cfg s.status = true →
      (eretOperation s).status = putBit s.status s.cfg.layout.erl false ∧ (eretOperation s).srsCtl = s.srsCtl) ∧
    (statusErl s.cfg s.status = false →
      (eretOperation s).status = putBit s.status s.cfg.layout.exl false ∧
      srsCss s.cfg (eretOperation s).srsCtl =
        (if 2 ≤ s.cfg.archRev ∧ 0 < srsHss s.cfg s.srsCtl ∧ statusBev s.cfg s.status = false
         then srsPss s.cfg s.srsCtl else srsCss s.cfg s.srsCtl) ∧
      srsPss s.cfg (eretOperation s).srsCtl = srsPss s.cfg s.srsCtl ∧
      srsEss s.cfg (eretOperation s).srsCtl = srsEss s.cfg s.srsCtl)

/-- R108: the return path completes; it pops the frame in the set current at the start, takes PSS and ESS from the
SRSCtl image and EPC from the EPC image, clears EXL, and under the guard, read on the restored Status, copies the
restored PSS to CSS; HSS and EICSS are not written. -/
def Obligations.IretReturnPathRestores : Prop :=
  ∀ s : State, ReturnReady s →
    ∃ t, exec .iret s = .next t ∧
      (∀ set r, t.xs set r = if set = srsCss s.cfg s.srsCtl ∧ r = 29 then s.x 29 + s.frameSize else s.xs set r) ∧
      srsPss s.cfg t.srsCtl = srsPss s.cfg (s.wordAt (s.x 29 + 8)) ∧
      srsEss s.cfg t.srsCtl = srsEss s.cfg (s.wordAt (s.x 29 + 8)) ∧
      t.epc = s.wordAt (s.x 29) ∧ statusExl s.cfg t.status = false ∧
      srsCss s.cfg t.srsCtl =
        (if 2 ≤ s.cfg.archRev ∧ 0 < srsHss s.cfg s.srsCtl ∧ statusBev s.cfg t.status = false
         then srsPss s.cfg t.srsCtl else srsCss s.cfg s.srsCtl) ∧
      srsHss s.cfg t.srsCtl = srsHss s.cfg s.srsCtl ∧ srsEicss s.cfg t.srsCtl = srsEicss s.cfg s.srsCtl

/-- The rest of the return path: Status takes the image under the mask, but EXL (R107; the mask is the spec's
decision D14, log 33); the jump to the restored EPC (a lost line the spec restores by derivation, N9, log 28); LLbit
and Cause.IC cleared (R109); the controller is sent nothing, and one sample is used up only when ICE is 1 (D17, log
29); memory is not written (R100). -/
def Obligations.IretReturnPathJumps : Prop :=
  ∀ s : State, ReturnReady s →
    ∃ t, exec .iret s = .next t ∧
      (∀ n, t.status.getLsbD n =
        if n = s.cfg.layout.exl then false
        else if s.cfg.statusWMask.getLsbD n then (s.wordAt (s.x 29 + 4)).getLsbD n else s.status.getLsbD n) ∧
      (s.cfg.hasMicroMIPS = false → t.pc = s.wordAt (s.x 29) ∧ t.isaMode = s.isaMode) ∧
      (s.cfg.hasMicroMIPS = true →
        t.pc = s.wordAt (s.x 29) &&& 0xFFFFFFFE ∧ t.isaMode = (s.wordAt (s.x 29)).getLsbD 0) ∧
      t.llBit = false ∧ t.cause = putBit s.cause s.cfg.layout.ic false ∧
      t.eicAcks = s.eicAcks ∧ (if intIce s.cfg s.intCtl then t.eicIn = s.eicIn.tail else SameEic s t) ∧
      SameMemory s t ∧ t.badVAddr = s.badVAddr ∧ t.context = s.context ∧ t.entryHi = s.entryHi

/-- The mode after the return path is the one the image's KSU gives, kernel if the image has ERL 1 (R150's sentence
is marked as derived; the modes are general knowledge G25, log 26). The mask holds the fields R37 asks for. -/
def Obligations.IretReturnsToTheImagesMode : Prop :=
  ∀ s : State, ReturnReady s → SoundConfig s.cfg →
    ∃ t, exec .iret s = .next t ∧
      (statusErl s.cfg (s.wordAt (s.x 29 + 4)) = true → statusMode s.cfg t.status = .kernel) ∧
      (statusErl s.cfg (s.wordAt (s.x 29 + 4)) = false →
        (statusKsu s.cfg (s.wordAt (s.x 29 + 4)) = 0 → statusMode s.cfg t.status = .kernel) ∧
        (statusKsu s.cfg (s.wordAt (s.x 29 + 4)) = 1 → statusMode s.cfg t.status = .supervisor) ∧
        (statusKsu s.cfg (s.wordAt (s.x 29 + 4)) = 2 → statusMode s.cfg t.status = .user))

/-- R110, R111: the chaining path completes; Cause.RIPL and SRSCtl.EICSS take the sample, EicAck is sent; register 29
of the old set is incremented by the frame size, CSS takes EICSS, Status.IPL takes Cause.RIPL, and register 29 of the
new set takes the old value, undoing the increment when the sets are the same; with ClrEXL both EXL and KSU are
cleared; LLbit is cleared and Cause.IC set. PSS, ESS and EPC are not written. -/
def Obligations.IretChainAccepts : Prop :=
  ∀ s : State, ChainReady s →
    ∃ t, exec .iret s = .next t ∧
      causeRipl s.cfg t.cause = s.eicOut.ripl ∧ srsEicss s.cfg t.srsCtl = s.eicOut.ss ∧
      t.eicAcks = s.eicAcks ++ [⟨s.eicOut.ripl, s.eicOut.ss⟩] ∧
      (∀ set r, t.xs set r =
        if set = s.eicOut.ss ∧ r = 29 then s.x 29
        else if set = srsCss s.cfg s.srsCtl ∧ r = 29 then s.x 29 + s.frameSize else s.xs set r) ∧
      statusIpl s.cfg t.status = causeRipl s.cfg t.cause ∧ srsCss s.cfg t.srsCtl = srsEicss s.cfg t.srsCtl ∧
      (intClrExl s.cfg s.intCtl = true → statusExl s.cfg t.status = false ∧ statusKsu s.cfg t.status = 0) ∧
      t.llBit = false ∧ causeIc s.cfg t.cause = true ∧
      srsPss s.cfg t.srsCtl = srsPss s.cfg s.srsCtl ∧ srsEss s.cfg t.srsCtl = srsEss s.cfg s.srsCtl ∧ t.epc = s.epc

/-- The rest of the chaining path: every other bit of Status is the image's under the mask (R107; log 33), every
other bit of Cause stays, and the jump is to the vector computed on the state as written (R112; its bit 0 with
microMIPS is the spec's decision D19, log 35). One sample of the controller is used up (the spec's decision D17, log
29). -/
def Obligations.IretChainJumps : Prop :=
  ∀ s : State, ChainReady s →
    ∃ t v, exec .iret s = .next t ∧ t.calcIntrptAddress s.eicOut = some v ∧
      (s.cfg.hasMicroMIPS = false → t.pc = v ∧ t.isaMode = s.isaMode) ∧
      (s.cfg.hasMicroMIPS = true → t.pc = v &&& 0xFFFFFFFE ∧ t.isaMode = v.getLsbD 0) ∧
      (∀ n, ¬ isIplBit s.cfg n →
        ¬ (intClrExl s.cfg s.intCtl = true ∧ (n = s.cfg.layout.exl ∨ inField s.cfg.layout.ksu 2 n)) →
        t.status.getLsbD n =
          if s.cfg.statusWMask.getLsbD n then (s.wordAt (s.x 29 + 4)).getLsbD n else s.status.getLsbD n) ∧
      (∀ n, ¬ isRiplBit s.cfg n → n ≠ s.cfg.layout.ic → t.cause.getLsbD n = s.cause.getLsbD n) ∧
      t.eicIn = s.eicIn.tail ∧ SameMemory s t ∧ t.badVAddr = s.badVAddr ∧ t.context = s.context ∧
      t.entryHi = s.entryHi

/-- R106: the return path is taken exactly when ICE is 0, or ICE is 1 and the image's IPL is at least the controller's
priority, as unsigned numbers; equal priorities return. IRET, once its first load has gone through, goes on by the
return path or the chaining path accordingly, on the Status image just loaded; with ICE 1 one sample of the controller
has then been used up, on either path (not R106 but the spec's decision D17, log 29). -/
def Obligations.NoChainRule : Prop :=
  (∀ (s : State) (tempStatus : Word) (eic : EicSample),
    (s.noChain tempStatus eic = true ↔
      intIce s.cfg s.intCtl = false ∨
        (intIce s.cfg s.intCtl = true ∧ eic.ripl.toNat ≤ (statusIpl s.cfg tempStatus).toNat)) ∧
    (statusIpl s.cfg tempStatus = eic.ripl → s.noChain tempStatus eic = true)) ∧
  ∀ s : State, IretReady s → WordAccessible s (s.x 29 + 4) →
    (s.noChain (s.wordAt (s.x 29 + 4)) s.eicOut = true →
      exec .iret s = iretReturn (s.wordAt (s.x 29 + 4)) (if intIce s.cfg s.intCtl then s.eicDrawn else s)) ∧
    (s.noChain (s.wordAt (s.x 29 + 4)) s.eicOut = false →
      exec .iret s = iretChain (s.wordAt (s.x 29 + 4)) s.eicOut s.eicDrawn)

/-- R114, with R116's bitwise OR: the vector address, arm by arm, without a value where the lost arm would be needed. -/
def Obligations.VectorAddress : Prop :=
  ∀ (s : State) (eic : EicSample),
    let base : Word :=
      if statusBev s.cfg s.status then 0xBFC00200
      else if 2 ≤ s.cfg.archRev then s.ebase &&& 0xFFFFF000 else 0x80000000
    let spacing : Word := (intVs s.cfg s.intCtl).setWidth 32 * 32
    let result := fun (offset : Word) =>
      if cfg3IsaOnExc s.cfg s.config3 then (base ||| offset) ||| 1 else base ||| offset
    s.calcIntrptAddress eic =
      if causeIv s.cfg s.cause = false then some (result 0x180)
      else if statusBev s.cfg s.status = true ∨ intVs s.cfg s.intCtl = 0 then some (result 0x200)
      else if cfg3Veic s.cfg s.config3 = false then none
      else match s.cfg.eicOption with
        | .option1 => some (result (0x200 + (causeRipl s.cfg s.cause).setWidth 32 * spacing))
        | .option2 => some (result (0x200 + eic.vectorNum.setWidth 32 * spacing))
        | .option3 => some (result eic.vectorOffset)

/-- The arm of CalcIntrptAddress whose body is lost is never reached by IRET (R115, which rests on the spec's
decision D15, log 34). -/
def Obligations.LostArmIsUnreachable : Prop :=
  ∀ s : State, exec .iret s ≠ .refused .vectorNumLost

/-- A register-set number above HSS, from the stacked image on the return path or from the controller on the chaining
path, is refused after the loads and before any write (R100). -/
def Obligations.SetOutOfRangeIsRefused : Prop :=
  ∀ s : State, IretReady s →
    (FrameAccessible s → Returns s → ¬ ImageInRange s → exec .iret s = .refused .setOutOfRange) ∧
    (WordAccessible s (s.x 29 + 4) → ¬ Returns s → srsHss s.cfg s.srsCtl < s.eicOut.ss →
      exec .iret s = .refused .setOutOfRange)

/-- A misaligned stack pointer gives an Address Error on the first load, at x[29] + 4, before translation: IRET is the
entry of that exception in the state it started in (R57, R104); one that is also watched is refused (R135's case; the
spec's decision D16, log 16). What the default entry records, and that it writes nothing else, is general knowledge
(log 17, log 47). -/
def Obligations.MisalignedStackTraps : Prop :=
  ∀ s : State, IretReady s → (s.x 29).extractLsb' 0 2 ≠ 0 →
    (s.watchMatch (s.x 29 + 4) 4 .load = false →
      exec .iret s = takeException (.addressError .load (s.x 29 + 4)) s ∧
      (s.cfg.trapEntry = .standard →
        ∃ t, t = trapEntry (.addressError .load (s.x 29 + 4)) s ∧ exec .iret s = .next t ∧
          t.badVAddr = s.x 29 + 4 ∧ causeExcCode s.cfg t.cause = 4 ∧ statusExl s.cfg t.status = true ∧
          SameRegs s t ∧ SameMemory s t ∧ t.llBit = s.llBit ∧ SameEic s t)) ∧
    (s.watchMatch (s.x 29 + 4) 4 .load = true → exec .iret s = .refused .watchOnMisaligned)

/-- The loads are made in the order +4, +8, +0 and the first that raises is the one taken (R105, R120): IRET is the
entry of that exception, in the state it started in, or, where the second or third load raises with ICE 1, in that
state with one sample of the controller used up (D17, log 29). The default entry records the code and BadVAddr and
changes no register, memory byte or LLbit (R139; general knowledge G30, log 17; the code's number is R130's, general
knowledge G26, log 47); no event is sent. -/
def Obligations.FirstFailingLoadIsTaken : Prop :=
  ∀ (s s' : State) (e : Exc), IretReady s →
    (s.loadStackWord (s.x 29 + 4) = .raise e ∧ s' = s) ∨
      (WordAccessible s (s.x 29 + 4) ∧ Returns s ∧ s' = (if intIce s.cfg s.intCtl then s.eicDrawn else s) ∧
        (s.loadStackWord (s.x 29 + 8) = .raise e ∨
          (WordAccessible s (s.x 29 + 8) ∧ s.loadStackWord (s.x 29) = .raise e))) →
    exec .iret s = takeException e s' ∧
    (s.cfg.trapEntry = .standard → (∀ va, e ≠ .cacheError va) →
      ∃ t, t = trapEntry e s' ∧ exec .iret s = .next t ∧ causeExcCode s.cfg t.cause = e.code ∧
        t.badVAddr = e.badAddr.getD s.badVAddr ∧ statusExl s.cfg t.status = true ∧
        SameRegs s t ∧ SameMemory s t ∧ t.llBit = s.llBit ∧ t.eicAcks = s.eicAcks)

/-- Each exception an aligned stack load can raise (R120), in the order Watch, the translation's exception, Bus Error or
Cache Error of the platform; a load that raises none answers the word. That Watch comes before the translation is the
spec's decision D16 (R53, R135; log 14); when a Bus or Cache Error occurs is D16's open parameter, which the model asks
after the translation (log 15). Where the load of IRET at x[29] + 4 raises one, that is the exception taken, by the
default entry (general knowledge G30, log 17) or, for a Cache Error under it, as a fault (R140, log 19);
FirstFailingLoadIsTaken has the other two loads. -/
def Obligations.StackLoadExceptions : Prop :=
  ∀ (s : State) (va : Word), va.extractLsb' 0 2 = 0 →
    (s.watchMatch va 4 .load = true → s.loadStackWord va = .raise (.watch va)) ∧
    (s.watchMatch va 4 .load = false →
      (∀ k, s.translate va .load = .fault k → s.loadStackWord va = .raise (transExc k .load va)) ∧
      ((∀ k, s.translate va .load ≠ .fault k) →
        (s.dataError (s.phys va) = some .bus → s.loadStackWord va = .raise (.busError va)) ∧
        (s.dataError (s.phys va) = some .cache → s.loadStackWord va = .raise (.cacheError va)) ∧
        (s.dataError (s.phys va) = none → s.loadStackWord va = .ok (s.wordAt va)))) ∧
    (IretReady s → va = s.x 29 + 4 → ∀ e, s.loadStackWord va = .raise e →
      exec .iret s = takeException e s ∧
      (s.cfg.trapEntry = .standard →
        (e = .cacheError va → exec .iret s = .fault (.cacheError va)) ∧
        (e ≠ .cacheError va → exec .iret s = .next (trapEntry e s))))

/-- The frame of IRET: unless it takes an exception, on every path it writes no memory (R100), and of the general
registers only register 29 can change (R35). An exception it takes leaves, by the default entry, all of these alone
too (general knowledge G30, log 17). That an entry other than the default keeps IntCtl, EBase, Config3, HSS, Cause.IV
and the marks is the model's choice (log 48). -/
def Obligations.IretFrame : Prop :=
  ∀ s t : State, exec .iret s = .next t →
    SameFixed s t ∧ t.stored = s.stored ∧ t.irqIn = s.irqIn ∧ t.resetIn = s.resetIn ∧
      (¬ TookException s t ∨ s.cfg.trapEntry = .standard →
        SameMemory s t ∧ SameConfiguration s t ∧ (∀ set r, r ≠ 29 → t.xs set r = s.xs set r)) ∧
      (s.cp0Usable = true → s.actsAsEret = true → SameRegs s t ∧ SameEic s t)

/-- An IRET that goes on has cleared LLbit (R66), or has taken an exception; the default entry of one sets EXL and
leaves LLbit and the registers (R140, general knowledge G30, log 17). -/
def Obligations.IretClearsLlBit : Prop :=
  ∀ s t : State, exec .iret s = .next t →
    t.llBit = false ∨
      (TookException s t ∧
        (s.cfg.trapEntry = .standard → t.llBit = s.llBit ∧ statusExl s.cfg t.status = true ∧ SameRegs s t))

/-- The default frame sizes: 12 bytes for codes 0 to 3, 4 bytes a unit above (R118's default is general knowledge G29,
log 32). -/
def Obligations.DefaultFrameSize : Prop :=
  ∀ s : State, s.cfg.stkDecBytes = Config.stkDecDefault →
    s.frameSize = if (intStkDec s.cfg s.intCtl).toNat ≤ 3 then 12 else 4 * (intStkDec s.cfg s.intCtl).setWidth 32

/-! Exceptions (60_exceptions). -/

/-- The default entry of an exception other than Cache Error (R140, general knowledge G30, log 17): what is saved when
EXL was 0, what is recorded (the code's number is R130's, general knowledge G26, log 47), and where the pc goes. -/
def Obligations.ExceptionEntry : Prop :=
  ∀ (e : Exc) (s : State), (∀ va, e ≠ .cacheError va) →
    (trapEntry e s).status = putBit s.status s.cfg.layout.exl true ∧
    causeExcCode s.cfg (trapEntry e s).cause = e.code ∧
    (trapEntry e s).badVAddr = e.badAddr.getD s.badVAddr ∧
    (statusExl s.cfg s.status = false →
      (s.cfg.hasMicroMIPS = false → (trapEntry e s).epc = s.pc) ∧
      (s.cfg.hasMicroMIPS = true → (trapEntry e s).epc = (s.pc &&& 0xFFFFFFFE) ||| (if s.isaMode then 1 else 0)) ∧
      causeBd s.cfg (trapEntry e s).cause = false ∧
      (s.setsSwitch s.status = true →
        srsPss s.cfg (trapEntry e s).srsCtl = srsCss s.cfg s.srsCtl ∧
        srsCss s.cfg (trapEntry e s).srsCtl = srsEss s.cfg s.srsCtl ∧
        srsEss s.cfg (trapEntry e s).srsCtl = srsEss s.cfg s.srsCtl ∧
        srsEicss s.cfg (trapEntry e s).srsCtl = srsEicss s.cfg s.srsCtl) ∧
      (s.setsSwitch s.status = false → (trapEntry e s).srsCtl = s.srsCtl) ∧
      (trapEntry e s).pc = s.vectorBase s.status + (match e with | .tlbRefill _ _ => 0 | _ => 0x180)) ∧
    (statusExl s.cfg s.status = true →
      (trapEntry e s).epc = s.epc ∧ (trapEntry e s).srsCtl = s.srsCtl ∧
      causeBd s.cfg (trapEntry e s).cause = causeBd s.cfg s.cause ∧
      (trapEntry e s).pc = s.vectorBase s.status + 0x180) ∧
    SameRegs s (trapEntry e s) ∧ SameMemory s (trapEntry e s) ∧ (trapEntry e s).llBit = s.llBit ∧
    SameEic s (trapEntry e s)

/-- What the default entry of an exception other than Cache Error leaves: Context and EntryHi but for a TLB
exception, every bit of Cause but ExcCode, BD and, for Coprocessor Unusable, CE, which takes the coprocessor's
number; ISAMode takes Config3.ISAOnExc when there is microMIPS and is not written otherwise (R140's default, general
knowledge G30, log 17, log 18). -/
def Obligations.ExceptionEntryLeavesTheRest : Prop :=
  ∀ (e : Exc) (s : State), (∀ va, e ≠ .cacheError va) →
    (e.tlbAddr = none → (trapEntry e s).context = s.context ∧ (trapEntry e s).entryHi = s.entryHi) ∧
    (∀ n, ¬ inField s.cfg.layout.excCode 5 n → ¬ inField s.cfg.layout.ce 2 n → n ≠ s.cfg.layout.bd →
      (trapEntry e s).cause.getLsbD n = s.cause.getLsbD n) ∧
    ((∀ cop, e ≠ .coprocessorUnusable cop) → causeCe s.cfg (trapEntry e s).cause = causeCe s.cfg s.cause) ∧
    (∀ cop, e = .coprocessorUnusable cop → causeCe s.cfg (trapEntry e s).cause = cop) ∧
    (trapEntry e s).isaMode = (if s.cfg.hasMicroMIPS then cfg3IsaOnExc s.cfg s.config3 else s.isaMode) ∧
    SameConfiguration s (trapEntry e s) ∧ (trapEntry e s).irqIn = s.irqIn ∧ (trapEntry e s).resetIn = s.resetIn

/-- TrapEntry is a parameter (R5, D12). Under the default, an exception other than Cache Error, not in a delay slot, is
taken by the default entry, and a Cache Error is a terminal fault (R140, log 17, log 19, log 43). Under any other, the
machine goes on as that entry says if it leaves every register-set number at most HSS, and is refused otherwise (R22,
log 48); memory then is canonical, and what nothing in scope writes stays (log 48). By such an entry a Cache Error sets
Status.ERL and does not save CSS in PSS (R141); every other exception records its code (R95, R130; the numbers are
general knowledge G26, log 47) and, with EXL 0 and shadow sets in use, saves CSS in PSS (R141; that this is R140's guard
is log 48); and BadVAddr takes the address of an IRET load that raised an address or TLB exception (R131). -/
def Obligations.ExceptionIsTaken : Prop :=
  ∀ (e : Exc) (s : State),
    (s.cfg.trapEntry = .standard → s.inDelaySlot = false →
      ((∀ va, e ≠ .cacheError va) → takeException e s = .next (trapEntry e s)) ∧
      (∀ va, e = .cacheError va → takeException e s = .fault (.cacheError va))) ∧
    (s.cfg.trapEntry = .standard → s.inDelaySlot = true → takeException e s = .refused .trapInDelaySlot) ∧
    (∀ n, s.cfg.trapEntry = .other n →
      (setsInRange s.cfg (otherEntry n e s).srsCtl → takeException e s = .next (otherEntry n e s)) ∧
      (¬ setsInRange s.cfg (otherEntry n e s).srsCtl → takeException e s = .refused .setOutOfRange) ∧
      SameFixed s (otherEntry n e s) ∧ (otherEntry n e s).stored = s.stored ∧ Memory.wf (otherEntry n e s).mem ∧
      (∀ va, e = .cacheError va → statusErl s.cfg (otherEntry n e s).status = true ∧
        srsPss s.cfg (otherEntry n e s).srsCtl = srsPss s.cfg s.srsCtl) ∧
      ((∀ va, e ≠ .cacheError va) →
        causeExcCode s.cfg (otherEntry n e s).cause = e.code ∧
        (statusExl s.cfg s.status = false → s.setsSwitch s.status = true →
          srsPss s.cfg (otherEntry n e s).srsCtl = srsCss s.cfg s.srsCtl)) ∧
      (∀ va, e ∈ [.addressError .load va, .tlbRefill .load va, .tlbInvalid .load va] →
        (otherEntry n e s).badVAddr = va))

/-! Registers, fields and memory. -/

/-- Register 0 of every set reads as zero and ignores writes (general knowledge G7, log 7), and shadow register sets
do not alias: a write changes one register of one set (general knowledge G6, log 8), and not register 0. -/
def Obligations.RegisterZeroAndSetsDoNotAlias : Prop :=
  (∀ (s : State) (set : BitVec 4) (v : Word), s.xs set 0 = 0 ∧ s.setXs set 0 v = s) ∧
  ∀ (s : State) (set set' : BitVec 4) (r r' : BitVec 5) (v : Word),
    (s.setXs set r v).xs set' r' = if r ≠ 0 ∧ set' = set ∧ r' = r then v else s.xs set' r'

/-- The write of a whole Status register changes the bits of the mask and no other, the write of a field changes that
field only, and IPL and RIPL read back as written with no other bit changed, wherever the layout puts them (R37, the
spec's decision D14, log 33; R27, R28; the layout is a parameter, D4, log 2). -/
def Obligations.RegisterWritesAreExact : Prop :=
  (∀ (mask old new : Word) (n : Nat),
    (writeStatus mask old new).getLsbD n = if mask.getLsbD n then new.getLsbD n else old.getLsbD n) ∧
  (∀ (width : Nat) (w : Word) (lo : Nat) (v : BitVec width) (n : Nat), lo + width ≤ 32 →
    (putField w lo v).getLsbD n = if lo ≤ n ∧ n < lo + width then v.getLsbD (n - lo) else w.getLsbD n) ∧
  (∀ (c : Config) (w : Word) (v : BitVec 8),
    statusIpl c (putStatusIpl c w v) = clipIpl c v ∧ causeRipl c (putCauseRipl c w v) = clipIpl c v ∧
    ∀ n, (¬ isIplBit c n → (putStatusIpl c w v).getLsbD n = w.getLsbD n) ∧
      (¬ isRiplBit c n → (putCauseRipl c w v).getLsbD n = w.getLsbD n))

/-- In the default layout every field stands at the bits R27 to R32 give it, Cause.CE and Cause.BD at R140's (general
knowledge G11 to G16 and G30, log 2). -/
def Obligations.DefaultLayoutPositions : Prop :=
  ∀ (c : Config) (w : Word), c.layout = Layout.standard →
    (statusIe c w = w.getLsbD 0 ∧ statusExl c w = w.getLsbD 1 ∧ statusErl c w = w.getLsbD 2 ∧
      statusKsu c w = w.extractLsb' 3 2 ∧ statusBev c w = w.getLsbD 22 ∧ statusCu0 c w = w.getLsbD 28 ∧
      (c.iplw = .six → statusIpl c w = (w.extractLsb' 10 6).setWidth 8) ∧
      (c.iplw = .eight → statusIpl c w = w.extractLsb' 18 1 ++ w.extractLsb' 16 1 ++ w.extractLsb' 10 6)) ∧
    (causeExcCode c w = w.extractLsb' 2 5 ∧ causeIv c w = w.getLsbD 23 ∧ causeIc c w = w.getLsbD 25 ∧
      causeCe c w = w.extractLsb' 28 2 ∧ causeBd c w = w.getLsbD 31 ∧
      (c.iplw = .six → causeRipl c w = (w.extractLsb' 10 6).setWidth 8) ∧
      (c.iplw = .eight → causeRipl c w = w.extractLsb' 10 8)) ∧
    (srsCss c w = w.extractLsb' 0 4 ∧ srsPss c w = w.extractLsb' 6 4 ∧ srsEss c w = w.extractLsb' 12 4 ∧
      srsEicss c w = w.extractLsb' 18 4 ∧ srsHss c w = w.extractLsb' 26 4) ∧
    (intApe c w = w.getLsbD 14 ∧ intIce c w = w.getLsbD 21 ∧ intStkDec c w = w.extractLsb' 16 5 ∧
      intClrExl c w = w.getLsbD 15 ∧ intVs c w = w.extractLsb' 5 5) ∧
    (cfg3Veic c w = w.getLsbD 6 ∧ cfg3IsaOnExc c w = w.getLsbD 16 ∧ cfg3Mcu c w = w.getLsbD 17 ∧
      cfg3Isa c w = w.extractLsb' 14 2 ∧ cfg3Iplw c w = w.extractLsb' 21 2)

/-- R54: MemWrite stores the byte in `Mem[va]`, the physical byte `va` maps to, and no other byte changes; so an address
that maps to the same byte after the write as before reads what is there. -/
def Obligations.ByteWriteThenRead : Prop :=
  ∀ (s : State) (va a : Word) (v : Byte),
    (∀ n, Memory.read (s.memWriteByte va v).mem n = if n = s.phys va then v else Memory.read s.mem n) ∧
    ((s.memWriteByte va v).phys a = s.phys a →
      (s.memWriteByte va v).byteAt a = if s.phys a = s.phys va then v else s.byteAt a)

/-- Every write keeps memory in its canonical form, so that equal memories are equal data, and a second write to an
address replaces the first (the form is the model's choice, log 5). -/
def Obligations.MemoryStaysCanonical : Prop :=
  ∀ (m : List Host.Cell) (a : Nat) (v w : Byte),
    (Memory.wf m → Memory.wf (Memory.write m a v)) ∧
      Memory.write (Memory.write m a v) a w = Memory.write m a w

/-- The word of four bytes in either byte order (R55's formulas, general knowledge G22, log 11): byte k of the word
holds bits 8k to 8k+7 little-endian and 24-8k to 31-8k big-endian; splitting a word into bytes is its inverse. -/
def Obligations.ByteOrderOfWords : Prop :=
  (∀ (b : Fin 4 → Byte) (k : Fin 4),
    (wordOfBytes false (b 0) (b 1) (b 2) (b 3)).extractLsb' (8 * k) 8 = b k ∧
    (wordOfBytes true (b 0) (b 1) (b 2) (b 3)).extractLsb' (24 - 8 * k) 8 = b k) ∧
  ∀ (be : Bool) (w : Word),
    wordOfBytes be (bytesOfWord be w).1 (bytesOfWord be w).2.1 (bytesOfWord be w).2.2.1 (bytesOfWord be w).2.2.2 = w

/-! Whole-machine rules. -/

/-- Every step keeps the invariant: register-set numbers at most HSS (R22), SRSCtl's other bits zero (R29), memory
canonical, modified code marked in order, all listed addresses physical addresses, Config3 in agreement with the
parameters (R32), and bits 31:30 of EBase `10` (R31, general knowledge G15, log 2). -/
def Obligations.StepKeepsInvariant : Prop :=
  ∀ s t : State, StateInv s → step s = .next t → StateInv t

/-- No step writes Config3, SRSCtl.HSS or the parameters. But for a reset-like event (R160), none writes IntCtl,
EBase or Cause.IV either (R28 to R32: no instruction in scope writes them), whatever the exception entry (the model's
choice for an entry other than the default, log 48); and none writes ErrorEPC or CacheError but such an entry (R33,
R34). -/
def Obligations.StepKeepsConfiguration : Prop :=
  ∀ s t : State, step s = .next t →
    t.config3 = s.config3 ∧ t.cfg = s.cfg ∧ t.inDelaySlot = s.inDelaySlot ∧
    srsHss s.cfg t.srsCtl = srsHss s.cfg s.srsCtl ∧
    (¬ TookReset s t →
      SameFixed s t ∧ (¬ TookException s t ∨ s.cfg.trapEntry = .standard → SameConfiguration s t))

/-- The current register set changes only in an IRET, in a reset-like event (R160), or in taking an exception, with the
default entry only where EXL was 0 (R22: of the instructions only IRET; the exception entry is general knowledge G30,
log 17). -/
def Obligations.OnlyIretOrExceptionSwitchesSets : Prop :=
  ∀ s t : State, step s = .next t → srsCss s.cfg t.srsCtl ≠ srsCss s.cfg s.srsCtl →
    decodeWord (s.wordAt s.pc) = .instr .iret ∨ TookReset s t ∨
      (TookException s t ∧ (s.cfg.trapEntry = .standard →
        statusExl s.cfg s.status = false ∧ statusExl s.cfg t.status = true))

/-- The event EicAck is sent by a chaining IRET and by nothing else, once, with the values Cause.RIPL and SRSCtl.EICSS
have just taken (R41). -/
def Obligations.OnlyChainingAcknowledges : Prop :=
  ∀ s t : State, step s = .next t →
    t.eicAcks = s.eicAcks ∨
      (decodeWord (s.wordAt s.pc) = .instr .iret ∧ intIce s.cfg s.intCtl = true ∧ causeIc s.cfg t.cause = true ∧
        t.eicAcks = s.eicAcks ++ [⟨causeRipl s.cfg t.cause, srsEicss s.cfg t.srsCtl⟩])

/-- Where coprocessor 0 is not usable, no step changes Status but by a reset-like event (R160) or by taking an
exception; the default entry sets EXL and nothing else of it (R140, general knowledge G30, log 17). By default
coprocessor 0 is not usable outside kernel mode with Status.CU0 0 (R136's condition is general knowledge G25, log
26). -/
def Obligations.UserModeCannotChangeStatus : Prop :=
  ∀ s : State,
    (s.cfg.cp0Usable = .standard → statusMode s.cfg s.status ≠ .kernel → statusCu0 s.cfg s.status = false →
      s.cp0Usable = false) ∧
    ∀ t, s.cp0Usable = false → step s = .next t →
      t.status = s.status ∨ TookReset s t ∨
        (TookException s t ∧
          (s.cfg.trapEntry = .standard → t.status = putBit s.status s.cfg.layout.exl true))

/-- Only ACLR and ASET write memory: a step that changes a byte executed one of them, and the byte is the one its
effective address maps to (R35: no other instruction in scope writes memory). An exception entry other than the
default may write memory too, and after a reset-like event memory is unspecified (R44). -/
def Obligations.OnlyAtomicsWriteMemory : Prop :=
  ∀ (s t : State) (a : Nat), step s = .next t → Memory.read t.mem a ≠ Memory.read s.mem a →
    (∃ base bit offset, a = s.phys (s.effAddr base offset) ∧
      (decodeWord (s.wordAt s.pc) = .instr (.aclr base bit offset) ∨
        decodeWord (s.wordAt s.pc) = .instr (.aset base bit offset))) ∨
    (TookException s t ∧ s.cfg.trapEntry ≠ .standard) ∨ TookReset s t
end

