-- ==== Sys2Proof/Laws/State.lean ====
section
/-! SUPPORT. What each update of the state leaves in each field, so that no proof unfolds a record update. -/

namespace Sys2Proof.Machine

@[simp] theorem State.clearHazards_eq (s : State) : s.clearHazards = s := rfl

/-! `State.setXs` -/
@[simp] theorem State.setXs_pc (s : State) (set : BitVec 4) (r : BitVec 5) (v : Word) :
    (s.setXs set r v).pc = s.pc := rfl
@[simp] theorem State.setXs_isaMode (s : State) (set : BitVec 4) (r : BitVec 5) (v : Word) :
    (s.setXs set r v).isaMode = s.isaMode := rfl
@[simp] theorem State.setXs_gpr (s : State) (set : BitVec 4) (r : BitVec 5) (v : Word) :
    (s.setXs set r v).gpr = writeGpr s.gpr set r v := rfl
@[simp] theorem State.setXs_status (s : State) (set : BitVec 4) (r : BitVec 5) (v : Word) :
    (s.setXs set r v).status = s.status := rfl
@[simp] theorem State.setXs_cause (s : State) (set : BitVec 4) (r : BitVec 5) (v : Word) :
    (s.setXs set r v).cause = s.cause := rfl
@[simp] theorem State.setXs_srsCtl (s : State) (set : BitVec 4) (r : BitVec 5) (v : Word) :
    (s.setXs set r v).srsCtl = s.srsCtl := rfl
@[simp] theorem State.setXs_intCtl (s : State) (set : BitVec 4) (r : BitVec 5) (v : Word) :
    (s.setXs set r v).intCtl = s.intCtl := rfl
@[simp] theorem State.setXs_ebase (s : State) (set : BitVec 4) (r : BitVec 5) (v : Word) :
    (s.setXs set r v).ebase = s.ebase := rfl
@[simp] theorem State.setXs_config3 (s : State) (set : BitVec 4) (r : BitVec 5) (v : Word) :
    (s.setXs set r v).config3 = s.config3 := rfl
@[simp] theorem State.setXs_epc (s : State) (set : BitVec 4) (r : BitVec 5) (v : Word) :
    (s.setXs set r v).epc = s.epc := rfl
@[simp] theorem State.setXs_errorEpc (s : State) (set : BitVec 4) (r : BitVec 5) (v : Word) :
    (s.setXs set r v).errorEpc = s.errorEpc := rfl
@[simp] theorem State.setXs_badVAddr (s : State) (set : BitVec 4) (r : BitVec 5) (v : Word) :
    (s.setXs set r v).badVAddr = s.badVAddr := rfl
@[simp] theorem State.setXs_context (s : State) (set : BitVec 4) (r : BitVec 5) (v : Word) :
    (s.setXs set r v).context = s.context := rfl
@[simp] theorem State.setXs_entryHi (s : State) (set : BitVec 4) (r : BitVec 5) (v : Word) :
    (s.setXs set r v).entryHi = s.entryHi := rfl
@[simp] theorem State.setXs_cacheErr (s : State) (set : BitVec 4) (r : BitVec 5) (v : Word) :
    (s.setXs set r v).cacheErr = s.cacheErr := rfl
@[simp] theorem State.setXs_llBit (s : State) (set : BitVec 4) (r : BitVec 5) (v : Word) :
    (s.setXs set r v).llBit = s.llBit := rfl
@[simp] theorem State.setXs_mem (s : State) (set : BitVec 4) (r : BitVec 5) (v : Word) :
    (s.setXs set r v).mem = s.mem := rfl
@[simp] theorem State.setXs_stored (s : State) (set : BitVec 4) (r : BitVec 5) (v : Word) :
    (s.setXs set r v).stored = s.stored := rfl
@[simp] theorem State.setXs_inDelaySlot (s : State) (set : BitVec 4) (r : BitVec 5) (v : Word) :
    (s.setXs set r v).inDelaySlot = s.inDelaySlot := rfl
@[simp] theorem State.setXs_eicIn (s : State) (set : BitVec 4) (r : BitVec 5) (v : Word) :
    (s.setXs set r v).eicIn = s.eicIn := rfl
@[simp] theorem State.setXs_eicAcks (s : State) (set : BitVec 4) (r : BitVec 5) (v : Word) :
    (s.setXs set r v).eicAcks = s.eicAcks := rfl
@[simp] theorem State.setXs_irqIn (s : State) (set : BitVec 4) (r : BitVec 5) (v : Word) :
    (s.setXs set r v).irqIn = s.irqIn := rfl
@[simp] theorem State.setXs_resetIn (s : State) (set : BitVec 4) (r : BitVec 5) (v : Word) :
    (s.setXs set r v).resetIn = s.resetIn := rfl
@[simp] theorem State.setXs_freeCount (s : State) (set : BitVec 4) (r : BitVec 5) (v : Word) :
    (s.setXs set r v).freeCount = s.freeCount := rfl
@[simp] theorem State.setXs_cfg (s : State) (set : BitVec 4) (r : BitVec 5) (v : Word) :
    (s.setXs set r v).cfg = s.cfg := rfl

/-! `State.jump` -/
@[simp] theorem State.jump_pc (s : State) (t : Word) : (s.jump t).pc = s.jumpPc t := rfl
@[simp] theorem State.jump_isaMode (s : State) (t : Word) : (s.jump t).isaMode = s.jumpIsa t := rfl
@[simp] theorem State.jump_gpr (s : State) (t : Word) : (s.jump t).gpr = s.gpr := rfl
@[simp] theorem State.jump_status (s : State) (t : Word) : (s.jump t).status = s.status := rfl
@[simp] theorem State.jump_cause (s : State) (t : Word) : (s.jump t).cause = s.cause := rfl
@[simp] theorem State.jump_srsCtl (s : State) (t : Word) : (s.jump t).srsCtl = s.srsCtl := rfl
@[simp] theorem State.jump_intCtl (s : State) (t : Word) : (s.jump t).intCtl = s.intCtl := rfl
@[simp] theorem State.jump_ebase (s : State) (t : Word) : (s.jump t).ebase = s.ebase := rfl
@[simp] theorem State.jump_config3 (s : State) (t : Word) : (s.jump t).config3 = s.config3 := rfl
@[simp] theorem State.jump_epc (s : State) (t : Word) : (s.jump t).epc = s.epc := rfl
@[simp] theorem State.jump_errorEpc (s : State) (t : Word) : (s.jump t).errorEpc = s.errorEpc := rfl
@[simp] theorem State.jump_badVAddr (s : State) (t : Word) : (s.jump t).badVAddr = s.badVAddr := rfl
@[simp] theorem State.jump_context (s : State) (t : Word) : (s.jump t).context = s.context := rfl
@[simp] theorem State.jump_entryHi (s : State) (t : Word) : (s.jump t).entryHi = s.entryHi := rfl
@[simp] theorem State.jump_cacheErr (s : State) (t : Word) : (s.jump t).cacheErr = s.cacheErr := rfl
@[simp] theorem State.jump_llBit (s : State) (t : Word) : (s.jump t).llBit = s.llBit := rfl
@[simp] theorem State.jump_mem (s : State) (t : Word) : (s.jump t).mem = s.mem := rfl
@[simp] theorem State.jump_stored (s : State) (t : Word) : (s.jump t).stored = s.stored := rfl
@[simp] theorem State.jump_inDelaySlot (s : State) (t : Word) : (s.jump t).inDelaySlot = s.inDelaySlot := rfl
@[simp] theorem State.jump_eicIn (s : State) (t : Word) : (s.jump t).eicIn = s.eicIn := rfl
@[simp] theorem State.jump_eicAcks (s : State) (t : Word) : (s.jump t).eicAcks = s.eicAcks := rfl
@[simp] theorem State.jump_irqIn (s : State) (t : Word) : (s.jump t).irqIn = s.irqIn := rfl
@[simp] theorem State.jump_resetIn (s : State) (t : Word) : (s.jump t).resetIn = s.resetIn := rfl
@[simp] theorem State.jump_freeCount (s : State) (t : Word) : (s.jump t).freeCount = s.freeCount := rfl
@[simp] theorem State.jump_cfg (s : State) (t : Word) : (s.jump t).cfg = s.cfg := rfl

/-! `State.advance` -/
@[simp] theorem State.advance_pc (s : State) : s.advance.pc = s.pc + 4 := rfl
@[simp] theorem State.advance_isaMode (s : State) : s.advance.isaMode = s.isaMode := rfl
@[simp] theorem State.advance_gpr (s : State) : s.advance.gpr = s.gpr := rfl
@[simp] theorem State.advance_status (s : State) : s.advance.status = s.status := rfl
@[simp] theorem State.advance_cause (s : State) : s.advance.cause = s.cause := rfl
@[simp] theorem State.advance_srsCtl (s : State) : s.advance.srsCtl = s.srsCtl := rfl
@[simp] theorem State.advance_intCtl (s : State) : s.advance.intCtl = s.intCtl := rfl
@[simp] theorem State.advance_ebase (s : State) : s.advance.ebase = s.ebase := rfl
@[simp] theorem State.advance_config3 (s : State) : s.advance.config3 = s.config3 := rfl
@[simp] theorem State.advance_epc (s : State) : s.advance.epc = s.epc := rfl
@[simp] theorem State.advance_errorEpc (s : State) : s.advance.errorEpc = s.errorEpc := rfl
@[simp] theorem State.advance_badVAddr (s : State) : s.advance.badVAddr = s.badVAddr := rfl
@[simp] theorem State.advance_context (s : State) : s.advance.context = s.context := rfl
@[simp] theorem State.advance_entryHi (s : State) : s.advance.entryHi = s.entryHi := rfl
@[simp] theorem State.advance_cacheErr (s : State) : s.advance.cacheErr = s.cacheErr := rfl
@[simp] theorem State.advance_llBit (s : State) : s.advance.llBit = s.llBit := rfl
@[simp] theorem State.advance_mem (s : State) : s.advance.mem = s.mem := rfl
@[simp] theorem State.advance_stored (s : State) : s.advance.stored = s.stored := rfl
@[simp] theorem State.advance_inDelaySlot (s : State) : s.advance.inDelaySlot = s.inDelaySlot := rfl
@[simp] theorem State.advance_eicIn (s : State) : s.advance.eicIn = s.eicIn := rfl
@[simp] theorem State.advance_eicAcks (s : State) : s.advance.eicAcks = s.eicAcks := rfl
@[simp] theorem State.advance_irqIn (s : State) : s.advance.irqIn = s.irqIn := rfl
@[simp] theorem State.advance_resetIn (s : State) : s.advance.resetIn = s.resetIn := rfl
@[simp] theorem State.advance_freeCount (s : State) : s.advance.freeCount = s.freeCount := rfl
@[simp] theorem State.advance_cfg (s : State) : s.advance.cfg = s.cfg := rfl

/-! `State.memWriteByte` -/
@[simp] theorem State.memWriteByte_pc (s : State) (va : Word) (v : Byte) : (s.memWriteByte va v).pc = s.pc := rfl
@[simp] theorem State.memWriteByte_isaMode (s : State) (va : Word) (v : Byte) :
    (s.memWriteByte va v).isaMode = s.isaMode := rfl
@[simp] theorem State.memWriteByte_gpr (s : State) (va : Word) (v : Byte) : (s.memWriteByte va v).gpr = s.gpr := rfl
@[simp] theorem State.memWriteByte_status (s : State) (va : Word) (v : Byte) :
    (s.memWriteByte va v).status = s.status := rfl
@[simp] theorem State.memWriteByte_cause (s : State) (va : Word) (v : Byte) :
    (s.memWriteByte va v).cause = s.cause := rfl
@[simp] theorem State.memWriteByte_srsCtl (s : State) (va : Word) (v : Byte) :
    (s.memWriteByte va v).srsCtl = s.srsCtl := rfl
@[simp] theorem State.memWriteByte_intCtl (s : State) (va : Word) (v : Byte) :
    (s.memWriteByte va v).intCtl = s.intCtl := rfl
@[simp] theorem State.memWriteByte_ebase (s : State) (va : Word) (v : Byte) :
    (s.memWriteByte va v).ebase = s.ebase := rfl
@[simp] theorem State.memWriteByte_config3 (s : State) (va : Word) (v : Byte) :
    (s.memWriteByte va v).config3 = s.config3 := rfl
@[simp] theorem State.memWriteByte_epc (s : State) (va : Word) (v : Byte) : (s.memWriteByte va v).epc = s.epc := rfl
@[simp] theorem State.memWriteByte_errorEpc (s : State) (va : Word) (v : Byte) :
    (s.memWriteByte va v).errorEpc = s.errorEpc := rfl
@[simp] theorem State.memWriteByte_badVAddr (s : State) (va : Word) (v : Byte) :
    (s.memWriteByte va v).badVAddr = s.badVAddr := rfl
@[simp] theorem State.memWriteByte_context (s : State) (va : Word) (v : Byte) :
    (s.memWriteByte va v).context = s.context := rfl
@[simp] theorem State.memWriteByte_entryHi (s : State) (va : Word) (v : Byte) :
    (s.memWriteByte va v).entryHi = s.entryHi := rfl
@[simp] theorem State.memWriteByte_cacheErr (s : State) (va : Word) (v : Byte) :
    (s.memWriteByte va v).cacheErr = s.cacheErr := rfl
@[simp] theorem State.memWriteByte_llBit (s : State) (va : Word) (v : Byte) :
    (s.memWriteByte va v).llBit = s.llBit := rfl
@[simp] theorem State.memWriteByte_mem (s : State) (va : Word) (v : Byte) :
    (s.memWriteByte va v).mem = Memory.write s.mem (s.phys va) v := rfl
@[simp] theorem State.memWriteByte_stored (s : State) (va : Word) (v : Byte) :
    (s.memWriteByte va v).stored = markStored (s.phys va) s.stored := rfl
@[simp] theorem State.memWriteByte_inDelaySlot (s : State) (va : Word) (v : Byte) :
    (s.memWriteByte va v).inDelaySlot = s.inDelaySlot := rfl
@[simp] theorem State.memWriteByte_eicIn (s : State) (va : Word) (v : Byte) :
    (s.memWriteByte va v).eicIn = s.eicIn := rfl
@[simp] theorem State.memWriteByte_eicAcks (s : State) (va : Word) (v : Byte) :
    (s.memWriteByte va v).eicAcks = s.eicAcks := rfl
@[simp] theorem State.memWriteByte_irqIn (s : State) (va : Word) (v : Byte) :
    (s.memWriteByte va v).irqIn = s.irqIn := rfl
@[simp] theorem State.memWriteByte_resetIn (s : State) (va : Word) (v : Byte) :
    (s.memWriteByte va v).resetIn = s.resetIn := rfl
@[simp] theorem State.memWriteByte_freeCount (s : State) (va : Word) (v : Byte) :
    (s.memWriteByte va v).freeCount = s.freeCount := rfl
@[simp] theorem State.memWriteByte_cfg (s : State) (va : Word) (v : Byte) : (s.memWriteByte va v).cfg = s.cfg := rfl

/-! `State.eicDrawn` -/
@[simp] theorem State.eicDrawn_pc (s : State) : s.eicDrawn.pc = s.pc := rfl
@[simp] theorem State.eicDrawn_isaMode (s : State) : s.eicDrawn.isaMode = s.isaMode := rfl
@[simp] theorem State.eicDrawn_gpr (s : State) : s.eicDrawn.gpr = s.gpr := rfl
@[simp] theorem State.eicDrawn_status (s : State) : s.eicDrawn.status = s.status := rfl
@[simp] theorem State.eicDrawn_cause (s : State) : s.eicDrawn.cause = s.cause := rfl
@[simp] theorem State.eicDrawn_srsCtl (s : State) : s.eicDrawn.srsCtl = s.srsCtl := rfl
@[simp] theorem State.eicDrawn_intCtl (s : State) : s.eicDrawn.intCtl = s.intCtl := rfl
@[simp] theorem State.eicDrawn_ebase (s : State) : s.eicDrawn.ebase = s.ebase := rfl
@[simp] theorem State.eicDrawn_config3 (s : State) : s.eicDrawn.config3 = s.config3 := rfl
@[simp] theorem State.eicDrawn_epc (s : State) : s.eicDrawn.epc = s.epc := rfl
@[simp] theorem State.eicDrawn_errorEpc (s : State) : s.eicDrawn.errorEpc = s.errorEpc := rfl
@[simp] theorem State.eicDrawn_badVAddr (s : State) : s.eicDrawn.badVAddr = s.badVAddr := rfl
@[simp] theorem State.eicDrawn_context (s : State) : s.eicDrawn.context = s.context := rfl
@[simp] theorem State.eicDrawn_entryHi (s : State) : s.eicDrawn.entryHi = s.entryHi := rfl
@[simp] theorem State.eicDrawn_cacheErr (s : State) : s.eicDrawn.cacheErr = s.cacheErr := rfl
@[simp] theorem State.eicDrawn_llBit (s : State) : s.eicDrawn.llBit = s.llBit := rfl
@[simp] theorem State.eicDrawn_mem (s : State) : s.eicDrawn.mem = s.mem := rfl
@[simp] theorem State.eicDrawn_stored (s : State) : s.eicDrawn.stored = s.stored := rfl
@[simp] theorem State.eicDrawn_inDelaySlot (s : State) : s.eicDrawn.inDelaySlot = s.inDelaySlot := rfl
@[simp] theorem State.eicDrawn_eicIn (s : State) : s.eicDrawn.eicIn = s.eicIn.tail := rfl
@[simp] theorem State.eicDrawn_eicAcks (s : State) : s.eicDrawn.eicAcks = s.eicAcks := rfl
@[simp] theorem State.eicDrawn_irqIn (s : State) : s.eicDrawn.irqIn = s.irqIn := rfl
@[simp] theorem State.eicDrawn_resetIn (s : State) : s.eicDrawn.resetIn = s.resetIn := rfl
@[simp] theorem State.eicDrawn_freeCount (s : State) :
    s.eicDrawn.freeCount = if s.eicIn.isEmpty then s.freeCount + 1 else s.freeCount := rfl
@[simp] theorem State.eicDrawn_cfg (s : State) : s.eicDrawn.cfg = s.cfg := rfl

/-! `State.boundaryPassed` -/
@[simp] theorem State.boundaryPassed_pc (s : State) : s.boundaryPassed.pc = s.pc := rfl
@[simp] theorem State.boundaryPassed_isaMode (s : State) : s.boundaryPassed.isaMode = s.isaMode := rfl
@[simp] theorem State.boundaryPassed_gpr (s : State) : s.boundaryPassed.gpr = s.gpr := rfl
@[simp] theorem State.boundaryPassed_status (s : State) : s.boundaryPassed.status = s.status := rfl
@[simp] theorem State.boundaryPassed_cause (s : State) : s.boundaryPassed.cause = s.cause := rfl
@[simp] theorem State.boundaryPassed_srsCtl (s : State) : s.boundaryPassed.srsCtl = s.srsCtl := rfl
@[simp] theorem State.boundaryPassed_intCtl (s : State) : s.boundaryPassed.intCtl = s.intCtl := rfl
@[simp] theorem State.boundaryPassed_ebase (s : State) : s.boundaryPassed.ebase = s.ebase := rfl
@[simp] theorem State.boundaryPassed_config3 (s : State) : s.boundaryPassed.config3 = s.config3 := rfl
@[simp] theorem State.boundaryPassed_epc (s : State) : s.boundaryPassed.epc = s.epc := rfl
@[simp] theorem State.boundaryPassed_errorEpc (s : State) : s.boundaryPassed.errorEpc = s.errorEpc := rfl
@[simp] theorem State.boundaryPassed_badVAddr (s : State) : s.boundaryPassed.badVAddr = s.badVAddr := rfl
@[simp] theorem State.boundaryPassed_context (s : State) : s.boundaryPassed.context = s.context := rfl
@[simp] theorem State.boundaryPassed_entryHi (s : State) : s.boundaryPassed.entryHi = s.entryHi := rfl
@[simp] theorem State.boundaryPassed_cacheErr (s : State) : s.boundaryPassed.cacheErr = s.cacheErr := rfl
@[simp] theorem State.boundaryPassed_llBit (s : State) : s.boundaryPassed.llBit = s.llBit := rfl
@[simp] theorem State.boundaryPassed_mem (s : State) : s.boundaryPassed.mem = s.mem := rfl
@[simp] theorem State.boundaryPassed_stored (s : State) : s.boundaryPassed.stored = s.stored := rfl
@[simp] theorem State.boundaryPassed_inDelaySlot (s : State) : s.boundaryPassed.inDelaySlot = s.inDelaySlot := rfl
@[simp] theorem State.boundaryPassed_eicIn (s : State) : s.boundaryPassed.eicIn = s.eicIn := rfl
@[simp] theorem State.boundaryPassed_eicAcks (s : State) : s.boundaryPassed.eicAcks = s.eicAcks := rfl
@[simp] theorem State.boundaryPassed_irqIn (s : State) : s.boundaryPassed.irqIn = s.irqIn.tail := rfl
@[simp] theorem State.boundaryPassed_resetIn (s : State) : s.boundaryPassed.resetIn = s.resetIn.tail := rfl
@[simp] theorem State.boundaryPassed_freeCount (s : State) : s.boundaryPassed.freeCount = s.freeCount := rfl
@[simp] theorem State.boundaryPassed_cfg (s : State) : s.boundaryPassed.cfg = s.cfg := rfl

/-! `trapEntry` -/
@[simp] theorem trapEntry_pc (e : Exc) (s : State) :
    (trapEntry e s).pc = s.vectorBase s.status + trapOffset s.cfg e s.status := rfl
@[simp] theorem trapEntry_isaMode (e : Exc) (s : State) :
    (trapEntry e s).isaMode = if s.cfg.hasMicroMIPS then cfg3IsaOnExc s.cfg s.config3 else s.isaMode := rfl
@[simp] theorem trapEntry_gpr (e : Exc) (s : State) : (trapEntry e s).gpr = s.gpr := rfl
@[simp] theorem trapEntry_status (e : Exc) (s : State) : (trapEntry e s).status =
      putBit s.status s.cfg.layout.exl true := rfl
@[simp] theorem trapEntry_cause (e : Exc) (s : State) : (trapEntry e s).cause =
      trapCause s.cfg e s.status s.cause := rfl
@[simp] theorem trapEntry_srsCtl (e : Exc) (s : State) : (trapEntry e s).srsCtl = s.trapSrsCtl := rfl
@[simp] theorem trapEntry_intCtl (e : Exc) (s : State) : (trapEntry e s).intCtl = s.intCtl := rfl
@[simp] theorem trapEntry_ebase (e : Exc) (s : State) : (trapEntry e s).ebase = s.ebase := rfl
@[simp] theorem trapEntry_config3 (e : Exc) (s : State) : (trapEntry e s).config3 = s.config3 := rfl
@[simp] theorem trapEntry_epc (e : Exc) (s : State) : (trapEntry e s).epc = s.trapEpc := rfl
@[simp] theorem trapEntry_errorEpc (e : Exc) (s : State) : (trapEntry e s).errorEpc = s.errorEpc := rfl
@[simp] theorem trapEntry_badVAddr (e : Exc) (s : State) : (trapEntry e s).badVAddr = e.badAddr.getD s.badVAddr := rfl
@[simp] theorem trapEntry_context (e : Exc) (s : State) :
    (trapEntry e s).context = (e.tlbAddr.map (Config.freeContext s.context)).getD s.context := rfl
@[simp] theorem trapEntry_entryHi (e : Exc) (s : State) :
    (trapEntry e s).entryHi = (e.tlbAddr.map (Config.freeEntryHi s.entryHi)).getD s.entryHi := rfl
@[simp] theorem trapEntry_cacheErr (e : Exc) (s : State) : (trapEntry e s).cacheErr = s.cacheErr := rfl
@[simp] theorem trapEntry_llBit (e : Exc) (s : State) : (trapEntry e s).llBit = s.llBit := rfl
@[simp] theorem trapEntry_mem (e : Exc) (s : State) : (trapEntry e s).mem = s.mem := rfl
@[simp] theorem trapEntry_stored (e : Exc) (s : State) : (trapEntry e s).stored = s.stored := rfl
@[simp] theorem trapEntry_inDelaySlot (e : Exc) (s : State) : (trapEntry e s).inDelaySlot = s.inDelaySlot := rfl
@[simp] theorem trapEntry_eicIn (e : Exc) (s : State) : (trapEntry e s).eicIn = s.eicIn := rfl
@[simp] theorem trapEntry_eicAcks (e : Exc) (s : State) : (trapEntry e s).eicAcks = s.eicAcks := rfl
@[simp] theorem trapEntry_irqIn (e : Exc) (s : State) : (trapEntry e s).irqIn = s.irqIn := rfl
@[simp] theorem trapEntry_resetIn (e : Exc) (s : State) : (trapEntry e s).resetIn = s.resetIn := rfl
@[simp] theorem trapEntry_freeCount (e : Exc) (s : State) : (trapEntry e s).freeCount = s.freeCount := rfl
@[simp] theorem trapEntry_cfg (e : Exc) (s : State) : (trapEntry e s).cfg = s.cfg := rfl

/-! `State.rewritten`, what both entries share: SRSCtl by fields -/
@[simp] theorem State.rewritten_srsCtl (s : State) (r : Rewritten) :
    (s.rewritten r).srsCtl = putField (putField (putField s.srsCtl s.cfg.layout.css r.css) s.cfg.layout.ess r.ess)
      s.cfg.layout.eicss r.eicss := rfl

/-! `otherEntry` -/
@[simp] theorem otherEntry_pc (n : Nat) (e : Exc) (s : State) :
    (otherEntry n e s).pc = (Config.freeTrapEntry n e s.view).pc := rfl
@[simp] theorem otherEntry_status (n : Nat) (e : Exc) (s : State) :
    (otherEntry n e s).status = if e.setsErl then putBit (Config.freeTrapEntry n e s.view).status s.cfg.layout.erl true
      else (Config.freeTrapEntry n e s.view).status := rfl
@[simp] theorem otherEntry_cause (n : Nat) (e : Exc) (s : State) :
    (otherEntry n e s).cause = putBit (if e.setsErl then (Config.freeTrapEntry n e s.view).cause
      else putField (Config.freeTrapEntry n e s.view).cause s.cfg.layout.excCode e.code) s.cfg.layout.iv
      (causeIv s.cfg s.cause) := rfl
@[simp] theorem otherEntry_srsCtl (n : Nat) (e : Exc) (s : State) :
    (otherEntry n e s).srsCtl = if e.setsErl then (s.rewritten (Config.freeTrapEntry n e s.view).toRewritten).srsCtl
      else putField (s.rewritten (Config.freeTrapEntry n e s.view).toRewritten).srsCtl s.cfg.layout.pss
        (if s.savesSet then srsCss s.cfg s.srsCtl else (Config.freeTrapEntry n e s.view).pss) := rfl
@[simp] theorem otherEntry_mem (n : Nat) (e : Exc) (s : State) :
    (otherEntry n e s).mem = Memory.ofCells s.cfg.psize (Config.freeTrapEntry n e s.view).mem := rfl
@[simp] theorem otherEntry_isaMode (n : Nat) (e : Exc) (s : State) :
    (otherEntry n e s).isaMode = (Config.freeTrapEntry n e s.view).isaMode := rfl
@[simp] theorem otherEntry_gpr (n : Nat) (e : Exc) (s : State) :
    (otherEntry n e s).gpr = (Config.freeTrapEntry n e s.view).gpr := rfl
@[simp] theorem otherEntry_epc (n : Nat) (e : Exc) (s : State) :
    (otherEntry n e s).epc = (Config.freeTrapEntry n e s.view).epc := rfl
@[simp] theorem otherEntry_errorEpc (n : Nat) (e : Exc) (s : State) :
    (otherEntry n e s).errorEpc = (Config.freeTrapEntry n e s.view).errorEpc := rfl
@[simp] theorem otherEntry_badVAddr (n : Nat) (e : Exc) (s : State) :
    (otherEntry n e s).badVAddr = e.loadAddr.getD (Config.freeTrapEntry n e s.view).badVAddr := rfl
@[simp] theorem otherEntry_context (n : Nat) (e : Exc) (s : State) :
    (otherEntry n e s).context = (Config.freeTrapEntry n e s.view).context := rfl
@[simp] theorem otherEntry_entryHi (n : Nat) (e : Exc) (s : State) :
    (otherEntry n e s).entryHi = (Config.freeTrapEntry n e s.view).entryHi := rfl
@[simp] theorem otherEntry_cacheErr (n : Nat) (e : Exc) (s : State) :
    (otherEntry n e s).cacheErr = (Config.freeTrapEntry n e s.view).cacheErr := rfl
@[simp] theorem otherEntry_llBit (n : Nat) (e : Exc) (s : State) :
    (otherEntry n e s).llBit = (Config.freeTrapEntry n e s.view).llBit := rfl
@[simp] theorem otherEntry_intCtl (n : Nat) (e : Exc) (s : State) : (otherEntry n e s).intCtl = s.intCtl := rfl
@[simp] theorem otherEntry_ebase (n : Nat) (e : Exc) (s : State) : (otherEntry n e s).ebase = s.ebase := rfl
@[simp] theorem otherEntry_config3 (n : Nat) (e : Exc) (s : State) : (otherEntry n e s).config3 = s.config3 := rfl
@[simp] theorem otherEntry_stored (n : Nat) (e : Exc) (s : State) : (otherEntry n e s).stored = s.stored := rfl
@[simp] theorem otherEntry_inDelaySlot (n : Nat) (e : Exc) (s : State) :
    (otherEntry n e s).inDelaySlot = s.inDelaySlot := rfl
@[simp] theorem otherEntry_eicIn (n : Nat) (e : Exc) (s : State) : (otherEntry n e s).eicIn = s.eicIn := rfl
@[simp] theorem otherEntry_eicAcks (n : Nat) (e : Exc) (s : State) : (otherEntry n e s).eicAcks = s.eicAcks := rfl
@[simp] theorem otherEntry_irqIn (n : Nat) (e : Exc) (s : State) : (otherEntry n e s).irqIn = s.irqIn := rfl
@[simp] theorem otherEntry_resetIn (n : Nat) (e : Exc) (s : State) : (otherEntry n e s).resetIn = s.resetIn := rfl
@[simp] theorem otherEntry_freeCount (n : Nat) (e : Exc) (s : State) : (otherEntry n e s).freeCount = s.freeCount := rfl
@[simp] theorem otherEntry_cfg (n : Nat) (e : Exc) (s : State) : (otherEntry n e s).cfg = s.cfg := rfl

/-! `resetEntry` -/
@[simp] theorem resetEntry_pc (k : ResetEvent) (s : State) : (resetEntry k s).pc = 0xBFC00000 := rfl
@[simp] theorem resetEntry_isaMode (k : ResetEvent) (s : State) :
    (resetEntry k s).isaMode = (Config.freeReset s.freeCount k s.view).isaMode := rfl
@[simp] theorem resetEntry_gpr (k : ResetEvent) (s : State) :
    (resetEntry k s).gpr = (Config.freeReset s.freeCount k s.view).gpr := rfl
@[simp] theorem resetEntry_status (k : ResetEvent) (s : State) :
    (resetEntry k s).status =
      putBit (putBit (Config.freeReset s.freeCount k s.view).status s.cfg.layout.bev true) s.cfg.layout.erl true := rfl
@[simp] theorem resetEntry_cause (k : ResetEvent) (s : State) :
    (resetEntry k s).cause = (Config.freeReset s.freeCount k s.view).cause := rfl
@[simp] theorem resetEntry_intCtl (k : ResetEvent) (s : State) :
    (resetEntry k s).intCtl = (Config.freeReset s.freeCount k s.view).intCtl := rfl
@[simp] theorem resetEntry_ebase (k : ResetEvent) (s : State) :
    (resetEntry k s).ebase = putField (Config.freeReset s.freeCount k s.view).ebase 30 2#2 := rfl
@[simp] theorem resetEntry_config3 (k : ResetEvent) (s : State) : (resetEntry k s).config3 = s.config3 := rfl
@[simp] theorem resetEntry_epc (k : ResetEvent) (s : State) :
    (resetEntry k s).epc = (Config.freeReset s.freeCount k s.view).epc := rfl
@[simp] theorem resetEntry_errorEpc (k : ResetEvent) (s : State) :
    (resetEntry k s).errorEpc = (Config.freeReset s.freeCount k s.view).errorEpc := rfl
@[simp] theorem resetEntry_badVAddr (k : ResetEvent) (s : State) :
    (resetEntry k s).badVAddr = (Config.freeReset s.freeCount k s.view).badVAddr := rfl
@[simp] theorem resetEntry_context (k : ResetEvent) (s : State) :
    (resetEntry k s).context = (Config.freeReset s.freeCount k s.view).context := rfl
@[simp] theorem resetEntry_entryHi (k : ResetEvent) (s : State) :
    (resetEntry k s).entryHi = (Config.freeReset s.freeCount k s.view).entryHi := rfl
@[simp] theorem resetEntry_cacheErr (k : ResetEvent) (s : State) :
    (resetEntry k s).cacheErr = (Config.freeReset s.freeCount k s.view).cacheErr := rfl
@[simp] theorem resetEntry_llBit (k : ResetEvent) (s : State) :
    (resetEntry k s).llBit = (Config.freeReset s.freeCount k s.view).llBit := rfl
@[simp] theorem resetEntry_mem (k : ResetEvent) (s : State) :
    (resetEntry k s).mem = Memory.ofCells s.cfg.psize (Config.freeReset s.freeCount k s.view).mem := rfl
@[simp] theorem resetEntry_stored (k : ResetEvent) (s : State) : (resetEntry k s).stored = s.stored := rfl
@[simp] theorem resetEntry_inDelaySlot (k : ResetEvent) (s : State) :
    (resetEntry k s).inDelaySlot = s.inDelaySlot := rfl
@[simp] theorem resetEntry_eicIn (k : ResetEvent) (s : State) : (resetEntry k s).eicIn = s.eicIn := rfl
@[simp] theorem resetEntry_eicAcks (k : ResetEvent) (s : State) : (resetEntry k s).eicAcks = s.eicAcks := rfl
@[simp] theorem resetEntry_irqIn (k : ResetEvent) (s : State) : (resetEntry k s).irqIn = s.irqIn := rfl
@[simp] theorem resetEntry_resetIn (k : ResetEvent) (s : State) : (resetEntry k s).resetIn = s.resetIn := rfl
@[simp] theorem resetEntry_freeCount (k : ResetEvent) (s : State) : (resetEntry k s).freeCount = s.freeCount + 1 := rfl
@[simp] theorem resetEntry_cfg (k : ResetEvent) (s : State) : (resetEntry k s).cfg = s.cfg := rfl
@[simp] theorem resetEntry_srsCtl (k : ResetEvent) (s : State) :
    (resetEntry k s).srsCtl = putField (putField (putField s.srsCtl s.cfg.layout.css
      (if k = .reset then 0 else clipSet s.cfg s.srsCtl (Config.freeReset s.freeCount k s.view).css))
      s.cfg.layout.ess (clipSet s.cfg s.srsCtl (Config.freeReset s.freeCount k s.view).ess))
      s.cfg.layout.eicss (clipSet s.cfg s.srsCtl (Config.freeReset s.freeCount k s.view).eicss) := rfl

/-! `State.view` -/
@[simp] theorem State.view_eicDrawn (s : State) : s.eicDrawn.view = s.view := rfl
@[simp] theorem State.view_boundaryPassed (s : State) : s.boundaryPassed.view = s.view := rfl

/-! `eretOperation` -/
@[simp] theorem eretOperation_pc (s : State) :
    (eretOperation s).pc = s.jumpPc (if statusErl s.cfg s.status then s.errorEpc else s.epc) := rfl
@[simp] theorem eretOperation_isaMode (s : State) :
    (eretOperation s).isaMode = s.jumpIsa (if statusErl s.cfg s.status then s.errorEpc else s.epc) := rfl
@[simp] theorem eretOperation_gpr (s : State) : (eretOperation s).gpr = s.gpr := rfl
@[simp] theorem eretOperation_status (s : State) :
    (eretOperation s).status = if statusErl s.cfg s.status then putBit s.status s.cfg.layout.erl false
      else putBit s.status s.cfg.layout.exl false := rfl
@[simp] theorem eretOperation_cause (s : State) : (eretOperation s).cause = s.cause := rfl
@[simp] theorem eretOperation_srsCtl (s : State) :
    (eretOperation s).srsCtl =
      if !statusErl s.cfg s.status && s.setsSwitch s.status then
        putField s.srsCtl s.cfg.layout.css (srsPss s.cfg s.srsCtl)
      else s.srsCtl := rfl
@[simp] theorem eretOperation_intCtl (s : State) : (eretOperation s).intCtl = s.intCtl := rfl
@[simp] theorem eretOperation_ebase (s : State) : (eretOperation s).ebase = s.ebase := rfl
@[simp] theorem eretOperation_config3 (s : State) : (eretOperation s).config3 = s.config3 := rfl
@[simp] theorem eretOperation_epc (s : State) : (eretOperation s).epc = s.epc := rfl
@[simp] theorem eretOperation_errorEpc (s : State) : (eretOperation s).errorEpc = s.errorEpc := rfl
@[simp] theorem eretOperation_badVAddr (s : State) : (eretOperation s).badVAddr = s.badVAddr := rfl
@[simp] theorem eretOperation_context (s : State) : (eretOperation s).context = s.context := rfl
@[simp] theorem eretOperation_entryHi (s : State) : (eretOperation s).entryHi = s.entryHi := rfl
@[simp] theorem eretOperation_cacheErr (s : State) : (eretOperation s).cacheErr = s.cacheErr := rfl
@[simp] theorem eretOperation_llBit (s : State) : (eretOperation s).llBit = false := rfl
@[simp] theorem eretOperation_mem (s : State) : (eretOperation s).mem = s.mem := rfl
@[simp] theorem eretOperation_stored (s : State) : (eretOperation s).stored = s.stored := rfl
@[simp] theorem eretOperation_inDelaySlot (s : State) : (eretOperation s).inDelaySlot = s.inDelaySlot := rfl
@[simp] theorem eretOperation_eicIn (s : State) : (eretOperation s).eicIn = s.eicIn := rfl
@[simp] theorem eretOperation_eicAcks (s : State) : (eretOperation s).eicAcks = s.eicAcks := rfl
@[simp] theorem eretOperation_irqIn (s : State) : (eretOperation s).irqIn = s.irqIn := rfl
@[simp] theorem eretOperation_resetIn (s : State) : (eretOperation s).resetIn = s.resetIn := rfl
@[simp] theorem eretOperation_freeCount (s : State) : (eretOperation s).freeCount = s.freeCount := rfl
@[simp] theorem eretOperation_cfg (s : State) : (eretOperation s).cfg = s.cfg := rfl

/-! `iretReturnPath` -/
@[simp] theorem iretReturnPath_pc (a b c : Word) (s : State) : (iretReturnPath a b c s).pc = s.jumpPc c := rfl
@[simp] theorem iretReturnPath_isaMode (a b c : Word) (s : State) :
    (iretReturnPath a b c s).isaMode = s.jumpIsa c := rfl
@[simp] theorem iretReturnPath_gpr (a b c : Word) (s : State) :
    (iretReturnPath a b c s).gpr = writeGpr s.gpr (srsCss s.cfg s.srsCtl) sp (s.x sp + s.frameSize) := rfl
@[simp] theorem iretReturnPath_status (a b c : Word) (s : State) :
    (iretReturnPath a b c s).status = s.returnStatus a := rfl
@[simp] theorem iretReturnPath_cause (a b c : Word) (s : State) :
    (iretReturnPath a b c s).cause = putBit s.cause s.cfg.layout.ic false := rfl
@[simp] theorem iretReturnPath_srsCtl (a b c : Word) (s : State) :
    (iretReturnPath a b c s).srsCtl = s.returnSrsCtl a b := rfl
@[simp] theorem iretReturnPath_intCtl (a b c : Word) (s : State) : (iretReturnPath a b c s).intCtl = s.intCtl := rfl
@[simp] theorem iretReturnPath_ebase (a b c : Word) (s : State) : (iretReturnPath a b c s).ebase = s.ebase := rfl
@[simp] theorem iretReturnPath_config3 (a b c : Word) (s : State) :
    (iretReturnPath a b c s).config3 = s.config3 := rfl
@[simp] theorem iretReturnPath_epc (a b c : Word) (s : State) : (iretReturnPath a b c s).epc = c := rfl
@[simp] theorem iretReturnPath_errorEpc (a b c : Word) (s : State) :
    (iretReturnPath a b c s).errorEpc = s.errorEpc := rfl
@[simp] theorem iretReturnPath_badVAddr (a b c : Word) (s : State) :
    (iretReturnPath a b c s).badVAddr = s.badVAddr := rfl
@[simp] theorem iretReturnPath_context (a b c : Word) (s : State) :
    (iretReturnPath a b c s).context = s.context := rfl
@[simp] theorem iretReturnPath_entryHi (a b c : Word) (s : State) :
    (iretReturnPath a b c s).entryHi = s.entryHi := rfl
@[simp] theorem iretReturnPath_cacheErr (a b c : Word) (s : State) :
    (iretReturnPath a b c s).cacheErr = s.cacheErr := rfl
@[simp] theorem iretReturnPath_llBit (a b c : Word) (s : State) : (iretReturnPath a b c s).llBit = false := rfl
@[simp] theorem iretReturnPath_mem (a b c : Word) (s : State) : (iretReturnPath a b c s).mem = s.mem := rfl
@[simp] theorem iretReturnPath_stored (a b c : Word) (s : State) : (iretReturnPath a b c s).stored = s.stored := rfl
@[simp] theorem iretReturnPath_inDelaySlot (a b c : Word) (s : State) :
    (iretReturnPath a b c s).inDelaySlot = s.inDelaySlot := rfl
@[simp] theorem iretReturnPath_eicIn (a b c : Word) (s : State) : (iretReturnPath a b c s).eicIn = s.eicIn := rfl
@[simp] theorem iretReturnPath_eicAcks (a b c : Word) (s : State) :
    (iretReturnPath a b c s).eicAcks = s.eicAcks := rfl
@[simp] theorem iretReturnPath_irqIn (a b c : Word) (s : State) : (iretReturnPath a b c s).irqIn = s.irqIn := rfl
@[simp] theorem iretReturnPath_resetIn (a b c : Word) (s : State) : (iretReturnPath a b c s).resetIn = s.resetIn := rfl
@[simp] theorem iretReturnPath_freeCount (a b c : Word) (s : State) :
    (iretReturnPath a b c s).freeCount = s.freeCount := rfl
@[simp] theorem iretReturnPath_cfg (a b c : Word) (s : State) : (iretReturnPath a b c s).cfg = s.cfg := rfl

/-! `iretChainAccept` -/
@[simp] theorem iretChainAccept_pc (a : Word) (e : EicSample) (s : State) : (iretChainAccept a e s).pc = s.pc := rfl
@[simp] theorem iretChainAccept_isaMode (a : Word) (e : EicSample) (s : State) :
    (iretChainAccept a e s).isaMode = s.isaMode := rfl
@[simp] theorem iretChainAccept_gpr (a : Word) (e : EicSample) (s : State) :
    (iretChainAccept a e s).gpr =
      writeGpr (writeGpr s.gpr (srsCss s.cfg s.srsCtl) sp (s.x sp + s.frameSize)) e.ss sp (s.x sp) := rfl
@[simp] theorem iretChainAccept_status (a : Word) (e : EicSample) (s : State) :
    (iretChainAccept a e s).status = s.chainStatus a e := rfl
@[simp] theorem iretChainAccept_cause (a : Word) (e : EicSample) (s : State) :
    (iretChainAccept a e s).cause = putBit (putCauseRipl s.cfg s.cause e.ripl) s.cfg.layout.ic true := rfl
@[simp] theorem iretChainAccept_srsCtl (a : Word) (e : EicSample) (s : State) :
    (iretChainAccept a e s).srsCtl = putField (putField s.srsCtl s.cfg.layout.eicss e.ss) s.cfg.layout.css e.ss := rfl
@[simp] theorem iretChainAccept_intCtl (a : Word) (e : EicSample) (s : State) :
    (iretChainAccept a e s).intCtl = s.intCtl := rfl
@[simp] theorem iretChainAccept_ebase (a : Word) (e : EicSample) (s : State) :
    (iretChainAccept a e s).ebase = s.ebase := rfl
@[simp] theorem iretChainAccept_config3 (a : Word) (e : EicSample) (s : State) :
    (iretChainAccept a e s).config3 = s.config3 := rfl
@[simp] theorem iretChainAccept_epc (a : Word) (e : EicSample) (s : State) :
    (iretChainAccept a e s).epc = s.epc := rfl
@[simp] theorem iretChainAccept_errorEpc (a : Word) (e : EicSample) (s : State) :
    (iretChainAccept a e s).errorEpc = s.errorEpc := rfl
@[simp] theorem iretChainAccept_badVAddr (a : Word) (e : EicSample) (s : State) :
    (iretChainAccept a e s).badVAddr = s.badVAddr := rfl
@[simp] theorem iretChainAccept_context (a : Word) (e : EicSample) (s : State) :
    (iretChainAccept a e s).context = s.context := rfl
@[simp] theorem iretChainAccept_entryHi (a : Word) (e : EicSample) (s : State) :
    (iretChainAccept a e s).entryHi = s.entryHi := rfl
@[simp] theorem iretChainAccept_cacheErr (a : Word) (e : EicSample) (s : State) :
    (iretChainAccept a e s).cacheErr = s.cacheErr := rfl
@[simp] theorem iretChainAccept_llBit (a : Word) (e : EicSample) (s : State) :
    (iretChainAccept a e s).llBit = false := rfl
@[simp] theorem iretChainAccept_mem (a : Word) (e : EicSample) (s : State) :
    (iretChainAccept a e s).mem = s.mem := rfl
@[simp] theorem iretChainAccept_stored (a : Word) (e : EicSample) (s : State) :
    (iretChainAccept a e s).stored = s.stored := rfl
@[simp] theorem iretChainAccept_inDelaySlot (a : Word) (e : EicSample) (s : State) :
    (iretChainAccept a e s).inDelaySlot = s.inDelaySlot := rfl
@[simp] theorem iretChainAccept_eicIn (a : Word) (e : EicSample) (s : State) :
    (iretChainAccept a e s).eicIn = s.eicIn := rfl
@[simp] theorem iretChainAccept_eicAcks (a : Word) (e : EicSample) (s : State) :
    (iretChainAccept a e s).eicAcks = s.eicAcks ++ [⟨e.ripl, e.ss⟩] := rfl
@[simp] theorem iretChainAccept_irqIn (a : Word) (e : EicSample) (s : State) :
    (iretChainAccept a e s).irqIn = s.irqIn := rfl
@[simp] theorem iretChainAccept_resetIn (a : Word) (e : EicSample) (s : State) :
    (iretChainAccept a e s).resetIn = s.resetIn := rfl
@[simp] theorem iretChainAccept_freeCount (a : Word) (e : EicSample) (s : State) :
    (iretChainAccept a e s).freeCount = s.freeCount := rfl
@[simp] theorem iretChainAccept_cfg (a : Word) (e : EicSample) (s : State) :
    (iretChainAccept a e s).cfg = s.cfg := rfl

end Sys2Proof.Machine
end

