-- ==== Sys2Proof/Laws/Memory.lean ====
section
/-! SUPPORT. Memory (R50, R53, R54): what a read gives after a write, and that every write keeps the canonical form. -/

namespace Sys2Proof.Machine

theorem Memory.read_filter_ne (m : List Host.Cell) (a b : Nat) (h : b ≠ a) :
    Memory.read (m.filter (fun c => c.1 ≠ a)) b = Memory.read m b := by
  induction m with
  | nil => rfl
  | cons c m ih =>
    by_cases hc : c.1 = a
    · simpa [List.filter_cons, hc, Memory.read, h.symm] using ih
    · simp only [List.filter_cons, ne_eq, hc, not_false_eq_true, decide_true, if_true, Memory.read]
      split
      · rfl
      · simpa using ih

theorem Memory.read_filter_self (m : List Host.Cell) (a : Nat) :
    Memory.read (m.filter (fun c => c.1 ≠ a)) a = Memory.unlisted := by
  induction m with
  | nil => rfl
  | cons c m ih =>
    by_cases hc : c.1 = a
    · simpa [List.filter_cons, hc] using ih
    · simp only [List.filter_cons, ne_eq, hc, not_false_eq_true, decide_true, if_true, Memory.read, if_false]
      simpa using ih

theorem Memory.read_insert (m : List Host.Cell) (a b : Nat) (v : Byte) (h : ∀ c ∈ m, c.1 ≠ a) :
    Memory.read (Memory.insert a v m) b = if b = a then v else Memory.read m b := by
  induction m with
  | nil => simp [Memory.insert, Memory.read, eq_comm]
  | cons c m ih =>
    have hc : c.1 ≠ a := h c (by simp)
    have ih := ih fun d hd => h d (by simp [hd])
    unfold Memory.insert
    split
    · simp [Memory.read, eq_comm]
    · by_cases hb : b = a
      · subst hb; simpa [Memory.read, hc] using ih
      · simp only [Memory.read, ih, if_neg hb]

/-- A read after a write: the byte written at that address, the byte before everywhere else. -/
@[simp] theorem Memory.read_write (m : List Host.Cell) (a b : Nat) (v : Byte) :
    Memory.read (Memory.write m a v) b = if b = a then v else Memory.read m b := by
  unfold Memory.write
  split
  · next hv =>
    split
    · next hb => subst hb; rw [hv]; exact Memory.read_filter_self m b
    · next hb => exact Memory.read_filter_ne m a b hb
  · rw [Memory.read_insert _ _ _ _ (by simp)]
    split
    · rfl
    · next hb => exact Memory.read_filter_ne m a b hb

theorem Memory.mem_insert (m : List Host.Cell) (a : Nat) (v : Byte) (c : Host.Cell) :
    c ∈ Memory.insert a v m ↔ c = (a, v) ∨ c ∈ m := by
  induction m with
  | nil => simp [Memory.insert]
  | cons d m ih =>
    unfold Memory.insert
    split
    · simp
    · simp only [List.mem_cons, ih]; tauto

/-- Every cell of a memory after a write: the one written, or one that was there. -/
theorem Memory.mem_write {m : List Host.Cell} {a : Nat} {v : Byte} {c : Host.Cell}
    (h : c ∈ Memory.write m a v) : c = (a, v) ∨ c ∈ m := by
  unfold Memory.write at h
  split at h
  · exact .inr (List.mem_of_mem_filter h)
  · exact ((Memory.mem_insert _ _ _ _).1 h).imp id List.mem_of_mem_filter

theorem Memory.pairwise_insert (m : List Host.Cell) (a : Nat) (v : Byte)
    (hm : m.Pairwise (fun c d => c.1 < d.1)) (h : ∀ c ∈ m, c.1 ≠ a) :
    (Memory.insert a v m).Pairwise (fun c d => c.1 < d.1) := by
  induction m with
  | nil => simp [Memory.insert]
  | cons c m ih =>
    obtain ⟨hc, hm⟩ := List.pairwise_cons.1 hm
    have hne : c.1 ≠ a := h c (by simp)
    unfold Memory.insert
    split
    · next hlt =>
      refine List.pairwise_cons.2 ⟨?_, List.pairwise_cons.2 ⟨hc, hm⟩⟩
      intro d hd
      rcases List.mem_cons.1 hd with rfl | hd
      · exact hlt
      · exact Nat.lt_trans hlt (hc d hd)
    · refine List.pairwise_cons.2 ⟨?_, ih hm fun d hd => h d (by simp [hd])⟩
      intro d hd
      rcases (Memory.mem_insert _ _ _ _).1 hd with rfl | hd
      · show c.1 < a
        omega
      · exact hc d hd

theorem Memory.wf_nil : Memory.wf [] := by simp [Memory.wf]

/-- Every write keeps the canonical form. -/
theorem Memory.wf_write {m : List Host.Cell} (h : Memory.wf m) (a : Nat) (v : Byte) :
    Memory.wf (Memory.write m a v) := by
  obtain ⟨hp, hd⟩ := h
  have hf : (m.filter (fun c => c.1 ≠ a)).Pairwise (fun c d => c.1 < d.1) := hp.filter _
  unfold Memory.write
  split
  · exact ⟨hf, fun c hc => hd c (List.mem_of_mem_filter hc)⟩
  · next hv =>
    refine ⟨Memory.pairwise_insert _ _ _ hf (by simp), ?_⟩
    intro c hc
    rcases (Memory.mem_insert _ _ _ _).1 hc with rfl | hc
    · exact hv
    · exact hd c (List.mem_of_mem_filter hc)

theorem Memory.filter_insert (m : List Host.Cell) (a : Nat) (v : Byte) (h : ∀ c ∈ m, c.1 ≠ a) :
    (Memory.insert a v m).filter (fun c => c.1 ≠ a) = m := by
  induction m with
  | nil => simp [Memory.insert]
  | cons c m ih =>
    have hc : c.1 ≠ a := h c (by simp)
    have hm : ∀ d ∈ m, d.1 ≠ a := fun d hd => h d (by simp [hd])
    unfold Memory.insert
    split
    · simp only [List.filter_cons, ne_eq, not_true_eq_false, decide_false, Bool.false_eq_true, if_false, hc,
        not_false_eq_true, decide_true, if_true]
      rw [List.filter_eq_self.2 (by simpa using hm)]
    · rw [List.filter_cons, if_pos (by simpa using hc), ih hm]

/-- A second write to an address replaces the first. -/
theorem Memory.write_write (m : List Host.Cell) (a : Nat) (v w : Byte) :
    Memory.write (Memory.write m a v) a w = Memory.write m a w := by
  have hrest : (Memory.write m a v).filter (fun c => c.1 ≠ a) = m.filter (fun c => c.1 ≠ a) := by
    unfold Memory.write
    split
    · simp
    · exact Memory.filter_insert _ _ _ (by simp)
  rw [Memory.write, hrest, ← Memory.write]

/-! The addresses of modified code (R67). -/

theorem mem_markStored (a b : Nat) (l : List Nat) : b ∈ markStored a l ↔ b = a ∨ b ∈ l := by
  induction l with
  | nil => simp [markStored]
  | cons c l ih =>
    unfold markStored
    split
    · simp
    · split
      · next h => subst h; simp
      · simp only [List.mem_cons, ih]; tauto

theorem pairwise_markStored (a : Nat) (l : List Nat) (h : l.Pairwise (· < ·)) :
    (markStored a l).Pairwise (· < ·) := by
  induction l with
  | nil => simp [markStored]
  | cons c l ih =>
    obtain ⟨hc, hl⟩ := List.pairwise_cons.1 h
    unfold markStored
    split
    · next hlt =>
      refine List.pairwise_cons.2 ⟨?_, h⟩
      intro d hd
      rcases List.mem_cons.1 hd with rfl | hd
      · exact hlt
      · exact Nat.lt_trans hlt (hc d hd)
    · split
      · exact h
      · refine List.pairwise_cons.2 ⟨?_, ih hl⟩
        intro d hd
        rcases (mem_markStored _ _ _).1 hd with rfl | hd
        · omega
        · exact hc d hd

theorem markStored_markStored (a : Nat) (l : List Nat) : markStored a (markStored a l) = markStored a l := by
  induction l with
  | nil => simp [markStored]
  | cons c l ih =>
    by_cases h1 : a < c
    · simp [markStored, h1]
    · by_cases h2 : a = c
      · simp [markStored, h2]
      · simp [markStored, h1, h2, ih]

/-! Memory rebuilt from cells. -/

theorem Memory.foldl_write (psize : Nat) (cells m : List Host.Cell) (hm : Memory.wf m)
    (hp : ∀ c ∈ m, c.1 < 2 ^ psize) :
    Memory.wf (cells.foldl (fun m c => Memory.write m (c.1 % 2 ^ psize) c.2) m) ∧
      ∀ c ∈ cells.foldl (fun m c => Memory.write m (c.1 % 2 ^ psize) c.2) m, c.1 < 2 ^ psize := by
  induction cells generalizing m with
  | nil => exact ⟨hm, hp⟩
  | cons c cells ih =>
    refine ih _ (Memory.wf_write hm _ _) fun d hd => ?_
    rcases Memory.mem_write hd with rfl | hd
    · exact Nat.mod_lt _ (Nat.two_pow_pos _)
    · exact hp d hd

/-- A memory rebuilt from cells is canonical. -/
theorem Memory.wf_ofCells (psize : Nat) (cells : List Host.Cell) : Memory.wf (Memory.ofCells psize cells) :=
  (Memory.foldl_write psize cells [] Memory.wf_nil (by simp)).1

/-- The addresses of a memory rebuilt from cells have `psize` bits. -/
theorem Memory.lt_of_mem_ofCells {psize : Nat} {cells : List Host.Cell} {c : Host.Cell}
    (h : c ∈ Memory.ofCells psize cells) : c.1 < 2 ^ psize :=
  (Memory.foldl_write psize cells [] Memory.wf_nil (by simp)).2 c h

/-! Addresses. -/

/-- A virtual address maps to a physical address of PSIZE bits (R51). -/
theorem State.phys_lt (s : State) (va : Word) : s.phys va < 2 ^ s.cfg.psize := by
  unfold State.phys State.mapping
  split
  · split <;> exact Nat.mod_lt _ (Nat.two_pow_pos _)
  · exact Nat.mod_lt _ (Nat.two_pow_pos _)

/-- Translation by the tables reads Status, EntryHi and the parameters, and nothing else of the state. -/
theorem State.mapping_of_tables {s t : State} (ht : s.cfg.translate = .standard) (h1 : t.status = s.status)
    (h2 : t.entryHi = s.entryHi) (h3 : t.cfg = s.cfg) (va : Word) : t.mapping va = s.mapping va := by
  simp only [State.mapping, mapApplies, condHolds, h1, h2, h3, ht]

/-- The exceptions of the tables, likewise. -/
theorem State.transFault_of_tables {s t : State} (ht : s.cfg.translate = .standard) (h1 : t.status = s.status)
    (h2 : t.entryHi = s.entryHi) (h3 : t.cfg = s.cfg) (va : Word) (acc : Access) :
    t.transFault va acc = s.transFault va acc := by
  simp only [State.transFault, faultApplies, condHolds, h1, h2, h3, ht]

theorem State.view_fields {s t : State} (h : t.view = s.view) :
    t.status = s.status ∧ t.entryHi = s.entryHi ∧ t.cfg = s.cfg :=
  ⟨(congrArg State.status h :), (congrArg State.entryHi h :), (congrArg State.cfg h :)⟩

/-- Translation reads nothing that `view` leaves out (log 48). -/
theorem State.mapping_congr {s t : State} (h : t.view = s.view) (va : Word) : t.mapping va = s.mapping va := by
  obtain ⟨h1, h2, h3⟩ := State.view_fields h
  simp only [State.mapping, mapApplies, condHolds, h, h1, h2, h3]

theorem State.phys_congr {s t : State} (h : t.view = s.view) (va : Word) : t.phys va = s.phys va := by
  rw [State.phys, State.mapping_congr h, State.phys]

theorem State.transFault_congr {s t : State} (h : t.view = s.view) (va : Word) (acc : Access) :
    t.transFault va acc = s.transFault va acc := by
  obtain ⟨h1, h2, h3⟩ := State.view_fields h
  simp only [State.transFault, faultApplies, condHolds, h, h1, h2, h3]

theorem State.translate_congr {s t : State} (h : t.view = s.view) (va : Word) (acc : Access) :
    t.translate va acc = s.translate va acc := by
  simp only [State.translate, State.transFault_congr h, State.mapping_congr h]

/-- MemWrite (R54): the byte written at its physical address, and every other byte as before. -/
theorem State.read_memWriteByte (s : State) (va : Word) (v : Byte) (a : Nat) :
    Memory.read (s.memWriteByte va v).mem a = if a = s.phys va then v else Memory.read s.mem a := by
  simp

/-- The same through an address the write leaves where it was. -/
theorem State.byteAt_memWriteByte (s : State) (va a : Word) (v : Byte)
    (h : (s.memWriteByte va v).phys a = s.phys a) :
    (s.memWriteByte va v).byteAt a = if s.phys a = s.phys va then v else s.byteAt a := by
  simp [State.byteAt, h]

end Sys2Proof.Machine
end

