-- ==== Sys2Proof/Laws/Access.lean ====
section
/-! SUPPORT. What a data access, an exception and a fetch can do: one lemma each, to be cited and not unfolded. -/

namespace Sys2Proof.Machine

/-- Taking an exception goes on only by the default entry, or by another that keeps the set numbers in range (R140,
R22). -/
theorem takeException_next {e : Exc} {s t : State} (h : takeException e s = .next t) :
    (s.cfg.trapEntry = .standard ∧ s.inDelaySlot = false ∧ t = trapEntry e s ∧ ∀ va, e ≠ .cacheError va) ∨
      ∃ n, s.cfg.trapEntry = .other n ∧ t = otherEntry n e s ∧ setsInRange s.cfg t.srsCtl := by
  unfold takeException at h
  split at h
  · next hs =>
    unfold takeStandard at h
    split at h
    · cases h
    · next hd =>
      split at h
      · cases h
      · next hc => cases h; exact .inl ⟨hs, by simpa using hd, rfl, hc⟩
  · next n hs =>
    split at h
    · next hr => cases h; exact .inr ⟨n, hs, rfl, hr⟩
    · cases h

/-- Under the default entry, taking an exception other than Cache Error is `trapEntry` (R140). -/
theorem takeException_eq {e : Exc} {s : State} (hs : s.cfg.trapEntry = .standard) (hd : s.inDelaySlot = false)
    (he : ∀ va, e ≠ .cacheError va) : takeException e s = .next (trapEntry e s) := by
  rw [takeException, hs]
  cases e <;> simp_all [takeStandard]

/-- Under the default entry an exception that goes on does so by `trapEntry`. -/
theorem takeException_next_standard {e : Exc} {s t : State} (hs : s.cfg.trapEntry = .standard)
    (h : takeException e s = .next t) : s.inDelaySlot = false ∧ t = trapEntry e s := by
  rcases takeException_next h with ⟨-, hd, ht, -⟩ | ⟨n, hn, -⟩
  · exact ⟨hd, ht⟩
  · rw [hs] at hn; cases hn

/-- A computation that goes on did so with the access's value, or by taking its exception. -/
theorem Eff.andThen_next {α : Type} {m : Eff α} {s t : State} {k : α → Out} (h : m.andThen s k = .next t) :
    (∃ a, m = .ok a ∧ k a = .next t) ∨ (∃ e, m = .raise e ∧ takeException e s = .next t) := by
  cases m with
  | ok a => exact .inl ⟨a, rfl, h⟩
  | raise e => exact .inr ⟨e, rfl, h⟩
  | refuse r => cases h

@[simp] theorem Eff.andThen_ok {α : Type} (a : α) (s : State) (k : α → Out) : (Eff.ok a).andThen s k = k a := rfl
@[simp] theorem Eff.andThen_raise {α : Type} (e : Exc) (s : State) (k : α → Out) :
    (Eff.raise e : Eff α).andThen s k = takeException e s := rfl
@[simp] theorem Eff.andThen_refuse {α : Type} (r : Refusal) (s : State) (k : α → Out) :
    (Eff.refuse r : Eff α).andThen s k = .refused r := rfl

/-- A translation that succeeds answers the current mapping (R52). -/
theorem State.translate_cases (s : State) (va : Word) (acc : Access) :
    s.translate va acc = .ok (s.phys va) (s.mapping va).2 ∨ ∃ k, s.translate va acc = .fault k := by
  unfold State.translate State.phys
  split
  · exact .inr ⟨_, rfl⟩
  · exact .inl rfl

/-- TLB Modified answers stores only (R52). -/
theorem State.transFault_tlbModified {s : State} {va : Word} {acc : Access}
    (h : s.transFault va acc = some .tlbModified) : acc = .store := by
  unfold State.transFault at h
  split at h
  · obtain ⟨f, hf, hk⟩ := Option.map_eq_some_iff.1 h
    have := List.find?_some hf
    simp only [faultApplies, hk, Bool.and_eq_true, bne_self_eq_false, Bool.false_or, beq_iff_eq] at this
    exact this.2
  · simpa using (Option.filter_eq_some_iff.1 h).2

theorem State.translate_tlbModified {s : State} {va : Word} {acc : Access}
    (h : s.translate va acc = .fault .tlbModified) : acc = .store := by
  unfold State.translate at h
  split at h
  · next k hk => cases h; exact State.transFault_tlbModified hk
  · cases h

/-- What locating an access can answer (R53): the current mapping, a Watch, or the translation's exception. -/
theorem State.locate_cases (s : State) (va : Word) (n : Nat) (acc : Access) :
    (s.watchMatch va n acc = true ∧ s.locate va n acc = .raise (.watch va)) ∨
    (s.watchMatch va n acc = false ∧ ∃ k, s.translate va acc = .fault k ∧
      s.locate va n acc = .raise (transExc k acc va)) ∨
    (s.watchMatch va n acc = false ∧ s.translate va acc = .ok (s.phys va) (s.mapping va).2 ∧
      s.locate va n acc = .ok (s.phys va)) := by
  unfold State.locate
  cases hw : s.watchMatch va n acc
  · rcases s.translate_cases va acc with ht | ⟨k, ht⟩
    · exact .inr (.inr ⟨rfl, ht, by simp [ht]⟩)
    · exact .inr (.inl ⟨rfl, k, ht, by simp [ht]⟩)
  · exact .inl ⟨rfl, rfl⟩

/-- What the byte access of ACLR and ASET can answer (R53, R95). -/
theorem State.memReadByte_cases (s : State) (va : Word) :
    (ByteAccessible s va ∧ s.memReadByte va = .ok (s.byteAt va)) ∨
    (s.watchMatch va 1 .store = true ∧ s.memReadByte va = .raise (.watch va)) ∨
    (s.watchMatch va 1 .store = false ∧ ∃ k, s.translate va .store = .fault k ∧
      s.memReadByte va = .raise (transExc k .store va)) := by
  unfold State.memReadByte
  rcases s.locate_cases va 1 .store with ⟨hw, hl⟩ | ⟨hw, k, ht, hl⟩ | ⟨hw, ht, hl⟩
  · exact .inr (.inl ⟨hw, by rw [hl]⟩)
  · exact .inr (.inr ⟨hw, k, ht, by rw [hl]⟩)
  · exact .inl ⟨⟨hw, ht⟩, by rw [hl]⟩

theorem State.memReadByte_ok {s : State} {va : Word} (h : ByteAccessible s va) :
    s.memReadByte va = .ok (s.byteAt va) := by
  obtain ⟨h1, h2⟩ := h
  simp [State.memReadByte, State.locate, h1, h2]

theorem State.loadStackWord_ok {s : State} {va : Word} (h : WordAccessible s va) :
    s.loadStackWord va = .ok (s.wordAt va) := by
  obtain ⟨h1, h2, h3, h4⟩ := h
  simp [State.loadStackWord, State.memReadWord, State.locate, h1, h2, h3, h4]

/-- A stack load that answers a value answers the word at its address. -/
theorem State.loadStackWord_value {s : State} {va w : Word} (h : s.loadStackWord va = .ok w) : w = s.wordAt va := by
  unfold State.loadStackWord State.memReadWord at h
  split at h
  · split at h
    · split at h <;> cases h; rfl
    · cases h
    · cases h
  · split at h <;> cases h

/-- A stack load is refused only where it is misaligned and watched (R135). -/
theorem State.loadStackWord_refuse {s : State} {va : Word} {r : Refusal} (h : s.loadStackWord va = .refuse r) :
    r = .watchOnMisaligned ∧ va.extractLsb' 0 2 ≠ 0 ∧ s.watchMatch va 4 .load = true := by
  unfold State.loadStackWord State.memReadWord at h
  split at h
  · rcases s.locate_cases va 4 .load with ⟨hw, hl⟩ | ⟨hw, k, ht, hl⟩ | ⟨hw, ht, hl⟩ <;> rw [hl] at h
    · cases h
    · cases h
    · simp only at h; split at h <;> cases h
  · next ha =>
    split at h
    · next hw => cases h; exact ⟨rfl, ha, hw⟩
    · cases h

/-- Taking a sample changes nothing an access reads. -/
@[simp] theorem State.loadStackWord_eicDrawn (s : State) (va : Word) :
    s.eicDrawn.loadStackWord va = s.loadStackWord va := rfl

/-- Looking at the boundary's request changes nothing a fetch reads. -/
@[simp] theorem State.fetch_boundaryPassed (s : State) : s.boundaryPassed.fetch = s.fetch := rfl

/-- What a fetch that answers a word, or raises, says of the state (R69, R81, R133). -/
theorem State.fetch_cases (s : State) :
    (s.fetch = .ok (s.wordAt s.pc) ∧ (s.cfg.hasMicroMIPS && s.isaMode) = false ∧ s.pc.extractLsb' 0 2 = 0 ∧
      s.translate s.pc .fetch = .ok (s.phys s.pc) (s.mapping s.pc).2 ∧ s.wordModified s.pc = false) ∨
    (s.fetch = .raise (.addressError .fetch s.pc) ∧ s.pc.extractLsb' 0 2 ≠ 0) ∨
    (∃ k, s.fetch = .raise (transExc k .fetch s.pc) ∧ s.translate s.pc .fetch = .fault k) ∨
    (∃ r, s.fetch = .refuse r) := by
  unfold State.fetch
  split
  · exact .inr (.inr (.inr ⟨_, rfl⟩))
  · next hi =>
    split
    · next ha =>
      rcases s.translate_cases s.pc .fetch with ht | ⟨k, ht⟩
      · rw [ht]; dsimp only
        split
        · exact .inr (.inr (.inr ⟨_, rfl⟩))
        · next hm => exact .inl ⟨rfl, by simpa using hi, ha, rfl, by simpa using hm⟩
      · rw [ht]; exact .inr (.inr (.inl ⟨k, rfl, rfl⟩))
    · next ha => exact .inr (.inl ⟨rfl, ha⟩)

end Sys2Proof.Machine
end

