-- ==== Sys2Proof/Laws/Fields.lean ====
section
/-! SUPPORT. What the writes of fields (R37) leave in each bit and in each field of a register. -/

namespace Sys2Proof

/-! The positions of a layout: within 32 bits, and apart. -/

theorem fieldsFit_bound {fs : List (Nat × Nat)} (h : fieldsFit fs) (i : Nat) (hi : i < fs.length) :
    fs[i].1 + fs[i].2 ≤ 32 :=
  h.1 _ (List.getElem_mem hi)

theorem fieldsFit_apart {fs : List (Nat × Nat)} (h : fieldsFit fs) (i j : Nat) (hi : i < fs.length)
    (hj : j < fs.length) (hij : i ≠ j) : fs[i].1 + fs[i].2 ≤ fs[j].1 ∨ fs[j].1 + fs[j].2 ≤ fs[i].1 := by
  have := List.pairwise_iff_getElem.1 h.2
  rcases Nat.lt_or_gt_of_ne hij with hlt | hlt
  · exact this i j hi hj hlt
  · exact (this j i hj hi hlt).symm

/-! Each position is within 32 bits. -/

theorem Layout.exl_lt (l : Layout) : l.exl < 32 := fieldsFit_bound l.statusFit 1 (by simp)
theorem Layout.erl_lt (l : Layout) : l.erl < 32 := fieldsFit_bound l.statusFit 2 (by simp)
theorem Layout.bev_lt (l : Layout) : l.bev < 32 := fieldsFit_bound l.statusFit 4 (by simp)
theorem Layout.ksu_le (l : Layout) : l.ksu + 2 ≤ 32 := fieldsFit_bound l.statusFit 3 (by simp)
theorem Layout.excCode_le (l : Layout) : l.excCode + 5 ≤ 32 := fieldsFit_bound l.causeFit 0 (by simp)
theorem Layout.iv_lt (l : Layout) : l.iv < 32 := fieldsFit_bound l.causeFit 1 (by simp)
theorem Layout.ic_lt (l : Layout) : l.ic < 32 := fieldsFit_bound l.causeFit 2 (by simp)
theorem Layout.ce_le (l : Layout) : l.ce + 2 ≤ 32 := fieldsFit_bound l.causeFit 3 (by simp)
theorem Layout.bd_lt (l : Layout) : l.bd < 32 := fieldsFit_bound l.causeFit 4 (by simp)
theorem Layout.css_le (l : Layout) : l.css + 4 ≤ 32 := fieldsFit_bound l.srsCtlFit 0 (by simp)
theorem Layout.pss_le (l : Layout) : l.pss + 4 ≤ 32 := fieldsFit_bound l.srsCtlFit 1 (by simp)
theorem Layout.ess_le (l : Layout) : l.ess + 4 ≤ 32 := fieldsFit_bound l.srsCtlFit 2 (by simp)
theorem Layout.eicss_le (l : Layout) : l.eicss + 4 ≤ 32 := fieldsFit_bound l.srsCtlFit 3 (by simp)
theorem Layout.hss_le (l : Layout) : l.hss + 4 ≤ 32 := fieldsFit_bound l.srsCtlFit 4 (by simp)

/-- Bit `i` of IPL is entry `6 + i` of the fields of Status. -/
theorem Positions.statusFields_ipl (p : Positions) (i : Fin 8) :
    p.statusFields[6 + i.val]'(by simp; omega) = (p.ipl[i], 1) :=
  match i with
  | 0 | 1 | 2 | 3 | 4 | 5 | 6 | 7 => rfl

/-- Bit `i` of RIPL is entry `5 + i` of the fields of Cause. -/
theorem Positions.causeFields_ripl (p : Positions) (i : Fin 8) :
    p.causeFields[5 + i.val]'(by simp; omega) = (p.ripl[i], 1) :=
  match i with
  | 0 | 1 | 2 | 3 | 4 | 5 | 6 | 7 => rfl

theorem Layout.ipl_lt (l : Layout) (i : Fin 8) : l.ipl[i] < 32 := by
  have := fieldsFit_bound l.statusFit (6 + i.val) (by simp; omega)
  rw [l.statusFields_ipl i] at this
  exact this

theorem Layout.ripl_lt (l : Layout) (i : Fin 8) : l.ripl[i] < 32 := by
  have := fieldsFit_bound l.causeFit (5 + i.val) (by simp; omega)
  rw [l.causeFields_ripl i] at this
  exact this

theorem Layout.ipl_ne (l : Layout) {i j : Fin 8} (h : i ≠ j) : l.ipl[i] ≠ l.ipl[j] := by
  have := fieldsFit_apart l.statusFit (6 + i.val) (6 + j.val) (by simp; omega) (by simp; omega)
    (fun e => h (Fin.ext (by omega)))
  rw [l.statusFields_ipl i, l.statusFields_ipl j] at this
  dsimp only at this
  omega

theorem Layout.ripl_ne (l : Layout) {i j : Fin 8} (h : i ≠ j) : l.ripl[i] ≠ l.ripl[j] := by
  have := fieldsFit_apart l.causeFit (5 + i.val) (5 + j.val) (by simp; omega) (by simp; omega)
    (fun e => h (Fin.ext (by omega)))
  rw [l.causeFields_ripl i, l.causeFields_ripl j] at this
  dsimp only at this
  omega

/-- Bits that are apart are different bits. -/
theorem apart_ne {a b : Nat} (h : a + 1 ≤ b ∨ b + 1 ≤ a) : a ≠ b := by omega

/-- A field of Status other than IPL, by its entry, is apart from every bit of IPL. -/
theorem Layout.ipl_apart (l : Layout) (k : Nat) (hk : k < 6) (i : Fin 8) :
    (l.statusFields[k]'(by simp; omega)).1 + (l.statusFields[k]'(by simp; omega)).2 ≤ l.ipl[i] ∨
      l.ipl[i] + 1 ≤ (l.statusFields[k]'(by simp; omega)).1 := by
  have := fieldsFit_apart l.statusFit k (6 + i.val) (by simp; omega) (by simp; omega) (by omega)
  rw [l.statusFields_ipl i] at this
  exact this

/-- A field of Cause other than RIPL, by its entry, is apart from every bit of RIPL. -/
theorem Layout.ripl_apart (l : Layout) (k : Nat) (hk : k < 5) (i : Fin 8) :
    (l.causeFields[k]'(by simp; omega)).1 + (l.causeFields[k]'(by simp; omega)).2 ≤ l.ripl[i] ∨
      l.ripl[i] + 1 ≤ (l.causeFields[k]'(by simp; omega)).1 := by
  have := fieldsFit_apart l.causeFit k (5 + i.val) (by simp; omega) (by simp; omega) (by omega)
  rw [l.causeFields_ripl i] at this
  exact this

end Sys2Proof

namespace Sys2Proof.Machine

theorem getLsbD_putField {n : Nat} (w : Word) (lo : Nat) (v : BitVec n) (i : Nat) (hn : lo + n ≤ 32) :
    (putField w lo v).getLsbD i = if lo ≤ i ∧ i < lo + n then v.getLsbD (i - lo) else w.getLsbD i := by
  by_cases hi : i < 32
  · have e1 : decide (i < lo) = !decide (lo ≤ i) := by by_cases h : lo ≤ i <;> simp [h]; omega
    have e2 : lo ≤ i → decide (i - lo < n) = decide (i < lo + n) := fun h => by
      simp only [decide_eq_decide]; omega
    have e3 : i - lo < 32 := by omega
    by_cases h1 : lo ≤ i
    · by_cases h2 : i < lo + n
      · simp [putField, hi, h1, h2, e1, e2, e3, -BitVec.getLsbD_eq_getElem]
      · simp [putField, hi, h1, h2, e1, e2, e3, BitVec.getLsbD_of_ge v (i - lo) (by omega),
          -BitVec.getLsbD_eq_getElem]
    · simp [putField, hi, h1, e1, -BitVec.getLsbD_eq_getElem]
  · have : ¬ (i < lo + n) := by omega
    simp [putField, this, BitVec.getLsbD_of_ge, Nat.le_of_not_lt hi]

/-- Reading the field a write has just put. -/
theorem extract_putField_same {n : Nat} (w : Word) (lo : Nat) (v : BitVec n) (hn : lo + n ≤ 32) :
    (putField w lo v).extractLsb' lo n = v := by
  apply BitVec.eq_of_getLsbD_eq
  intro i hi
  simp [hi, getLsbD_putField w lo v _ hn]

/-- Reading a field apart from the one written. -/
theorem extract_putField_other {n : Nat} (w : Word) (lo : Nat) (v : BitVec n) (lo' m : Nat) (hn : lo + n ≤ 32)
    (h : lo' + m ≤ lo ∨ lo + n ≤ lo') : (putField w lo v).extractLsb' lo' m = w.extractLsb' lo' m := by
  apply BitVec.eq_of_getLsbD_eq
  intro i hi
  have : ¬ (lo ≤ lo' + i ∧ lo' + i < lo + n) := by omega
  simp [hi, getLsbD_putField w lo v _ hn, this]

theorem getLsbD_putBit (w : Word) (i j : Nat) (b : Bool) (hi : i < 32) :
    (putBit w i b).getLsbD j = if j = i then b else w.getLsbD j := by
  rw [putBit, getLsbD_putField _ _ _ _ (by omega)]
  by_cases h : j = i
  · subst h; simp
  · rw [if_neg (by omega), if_neg h]

/-- Reading a field apart from the bit written. -/
theorem extract_putBit_other (w : Word) (i : Nat) (b : Bool) (lo m : Nat) (hi : i < 32)
    (h : lo + m ≤ i ∨ i < lo) : (putBit w i b).extractLsb' lo m = w.extractLsb' lo m :=
  extract_putField_other w i _ lo m (by omega) (by omega)

theorem getLsbD_writeStatus (mask old new : Word) (i : Nat) :
    (writeStatus mask old new).getLsbD i = if mask.getLsbD i then new.getLsbD i else old.getLsbD i := by
  by_cases hi : i < 32
  · cases h : mask.getLsbD i <;> simp [writeStatus, hi, -BitVec.getLsbD_eq_getElem, h]
  · simp [BitVec.getLsbD_of_ge, Nat.le_of_not_lt hi]

/-! Bits gathered from, and scattered to, given positions. -/

theorem getLsbD_gatherBits (pos : Vector Nat 8) (n : Nat) (w : Word) (i : Fin 8) :
    (gatherBits pos n w).getLsbD i.val = (decide (i.val < n) && w.getLsbD pos[i]) := by
  rw [gatherBits, BitVec.getLsbD_ofFnLE, dif_pos i.isLt]

theorem getLsbD_foldl_putBit_other (pos : Vector Nat 8) (n : Nat) (v : BitVec 8) (j : Nat)
    (hb : ∀ i : Fin 8, pos[i] < 32) (l : List (Fin 8)) (w : Word) (h : ∀ i ∈ l, i.val < n → pos[i] ≠ j) :
    (l.foldl (fun w (i : Fin 8) => if i.val < n then putBit w pos[i] (v.getLsbD i) else w) w).getLsbD j =
      w.getLsbD j := by
  induction l generalizing w with
  | nil => rfl
  | cons i l ih =>
    rw [List.foldl_cons, ih _ fun k hk => h k (by simp [hk])]
    split
    · next hi => rw [getLsbD_putBit _ _ _ _ (hb i), if_neg (h i (by simp) hi).symm]
    · rfl

theorem getLsbD_foldl_putBit_same (pos : Vector Nat 8) (n : Nat) (v : BitVec 8) (hb : ∀ i : Fin 8, pos[i] < 32)
    (hp : ∀ i j : Fin 8, i ≠ j → pos[i] ≠ pos[j]) (l : List (Fin 8)) (hl : l.Nodup) (w : Word) (i : Fin 8)
    (hi : i ∈ l) (hn : i.val < n) :
    (l.foldl (fun w (i : Fin 8) => if i.val < n then putBit w pos[i] (v.getLsbD i) else w) w).getLsbD pos[i] =
      v.getLsbD i := by
  induction l generalizing w with
  | nil => cases hi
  | cons k l ih =>
    obtain ⟨hk, hl⟩ := List.nodup_cons.1 hl
    rw [List.foldl_cons]
    by_cases h : i = k
    · subst h
      rw [getLsbD_foldl_putBit_other pos n v _ hb l _ fun j hj _ => hp j i fun e => hk (e ▸ hj), if_pos hn,
        getLsbD_putBit _ _ _ _ (hb i), if_pos rfl]
    · exact ih hl _ ((List.mem_cons.1 hi).resolve_left h)

/-- A scattered write leaves every bit that is not one of its positions. -/
theorem getLsbD_scatterBits_other (pos : Vector Nat 8) (n : Nat) (w : Word) (v : BitVec 8) (j : Nat)
    (hb : ∀ i : Fin 8, pos[i] < 32) (h : ∀ i : Fin 8, i.val < n → pos[i] ≠ j) :
    (scatterBits pos n w v).getLsbD j = w.getLsbD j :=
  getLsbD_foldl_putBit_other pos n v j hb _ w fun i _ => h i

/-- Reading a scattered field back gives the low bits of what was written. -/
theorem gatherBits_scatterBits (pos : Vector Nat 8) (n : Nat) (w : Word) (v : BitVec 8)
    (hb : ∀ i : Fin 8, pos[i] < 32) (hp : ∀ i j : Fin 8, i ≠ j → pos[i] ≠ pos[j]) (i : Fin 8) :
    (gatherBits pos n (scatterBits pos n w v)).getLsbD i.val = (decide (i.val < n) && v.getLsbD i.val) := by
  have mem : ∀ i : Fin 8, i ∈ ([0, 1, 2, 3, 4, 5, 6, 7] : List (Fin 8)) := by decide
  rw [getLsbD_gatherBits]
  by_cases hn : i.val < n
  · rw [scatterBits, getLsbD_foldl_putBit_same pos n v hb hp _ (by decide) w i (mem i) hn]
  · simp [hn]

theorem gatherBits_congr (pos : Vector Nat 8) (n : Nat) (w w' : Word)
    (h : ∀ i : Fin 8, w'.getLsbD pos[i] = w.getLsbD pos[i]) : gatherBits pos n w' = gatherBits pos n w := by
  simp only [gatherBits, h]

theorem getLsbD_clipIpl (c : Config) (v : BitVec 8) (i : Fin 8) :
    (clipIpl c v).getLsbD i.val = (decide (i.val < iplBitCount c) && v.getLsbD i.val) := by
  unfold clipIpl iplBitCount
  cases c.iplw
  · match i with
    | 0 | 1 | 2 | 3 | 4 | 5 | 6 | 7 => simp [-BitVec.getLsbD_eq_getElem]
  · simp

/-! Each named field of SRSCtl after each write of one of its fields. -/

@[simp] theorem srsCss_putCss (c : Config) (w : Word) (v : BitVec 4) :
    srsCss c (putField w c.layout.css v) = v :=
  extract_putField_same w _ v c.layout.css_le
@[simp] theorem srsCss_putPss (c : Config) (w : Word) (v : BitVec 4) :
    srsCss c (putField w c.layout.pss v) = srsCss c w :=
  extract_putField_other w _ v _ 4 c.layout.pss_le
    (fieldsFit_apart c.layout.srsCtlFit 0 1 (by simp) (by simp) (by simp))
@[simp] theorem srsCss_putEss (c : Config) (w : Word) (v : BitVec 4) :
    srsCss c (putField w c.layout.ess v) = srsCss c w :=
  extract_putField_other w _ v _ 4 c.layout.ess_le
    (fieldsFit_apart c.layout.srsCtlFit 0 2 (by simp) (by simp) (by simp))
@[simp] theorem srsCss_putEicss (c : Config) (w : Word) (v : BitVec 4) :
    srsCss c (putField w c.layout.eicss v) = srsCss c w :=
  extract_putField_other w _ v _ 4 c.layout.eicss_le
    (fieldsFit_apart c.layout.srsCtlFit 0 3 (by simp) (by simp) (by simp))
@[simp] theorem srsPss_putCss (c : Config) (w : Word) (v : BitVec 4) :
    srsPss c (putField w c.layout.css v) = srsPss c w :=
  extract_putField_other w _ v _ 4 c.layout.css_le
    (fieldsFit_apart c.layout.srsCtlFit 1 0 (by simp) (by simp) (by simp))
@[simp] theorem srsPss_putPss (c : Config) (w : Word) (v : BitVec 4) :
    srsPss c (putField w c.layout.pss v) = v :=
  extract_putField_same w _ v c.layout.pss_le
@[simp] theorem srsPss_putEss (c : Config) (w : Word) (v : BitVec 4) :
    srsPss c (putField w c.layout.ess v) = srsPss c w :=
  extract_putField_other w _ v _ 4 c.layout.ess_le
    (fieldsFit_apart c.layout.srsCtlFit 1 2 (by simp) (by simp) (by simp))
@[simp] theorem srsPss_putEicss (c : Config) (w : Word) (v : BitVec 4) :
    srsPss c (putField w c.layout.eicss v) = srsPss c w :=
  extract_putField_other w _ v _ 4 c.layout.eicss_le
    (fieldsFit_apart c.layout.srsCtlFit 1 3 (by simp) (by simp) (by simp))
@[simp] theorem srsEss_putCss (c : Config) (w : Word) (v : BitVec 4) :
    srsEss c (putField w c.layout.css v) = srsEss c w :=
  extract_putField_other w _ v _ 4 c.layout.css_le
    (fieldsFit_apart c.layout.srsCtlFit 2 0 (by simp) (by simp) (by simp))
@[simp] theorem srsEss_putPss (c : Config) (w : Word) (v : BitVec 4) :
    srsEss c (putField w c.layout.pss v) = srsEss c w :=
  extract_putField_other w _ v _ 4 c.layout.pss_le
    (fieldsFit_apart c.layout.srsCtlFit 2 1 (by simp) (by simp) (by simp))
@[simp] theorem srsEss_putEss (c : Config) (w : Word) (v : BitVec 4) :
    srsEss c (putField w c.layout.ess v) = v :=
  extract_putField_same w _ v c.layout.ess_le
@[simp] theorem srsEss_putEicss (c : Config) (w : Word) (v : BitVec 4) :
    srsEss c (putField w c.layout.eicss v) = srsEss c w :=
  extract_putField_other w _ v _ 4 c.layout.eicss_le
    (fieldsFit_apart c.layout.srsCtlFit 2 3 (by simp) (by simp) (by simp))
@[simp] theorem srsEicss_putCss (c : Config) (w : Word) (v : BitVec 4) :
    srsEicss c (putField w c.layout.css v) = srsEicss c w :=
  extract_putField_other w _ v _ 4 c.layout.css_le
    (fieldsFit_apart c.layout.srsCtlFit 3 0 (by simp) (by simp) (by simp))
@[simp] theorem srsEicss_putPss (c : Config) (w : Word) (v : BitVec 4) :
    srsEicss c (putField w c.layout.pss v) = srsEicss c w :=
  extract_putField_other w _ v _ 4 c.layout.pss_le
    (fieldsFit_apart c.layout.srsCtlFit 3 1 (by simp) (by simp) (by simp))
@[simp] theorem srsEicss_putEss (c : Config) (w : Word) (v : BitVec 4) :
    srsEicss c (putField w c.layout.ess v) = srsEicss c w :=
  extract_putField_other w _ v _ 4 c.layout.ess_le
    (fieldsFit_apart c.layout.srsCtlFit 3 2 (by simp) (by simp) (by simp))
@[simp] theorem srsEicss_putEicss (c : Config) (w : Word) (v : BitVec 4) :
    srsEicss c (putField w c.layout.eicss v) = v :=
  extract_putField_same w _ v c.layout.eicss_le
@[simp] theorem srsHss_putCss (c : Config) (w : Word) (v : BitVec 4) :
    srsHss c (putField w c.layout.css v) = srsHss c w :=
  extract_putField_other w _ v _ 4 c.layout.css_le
    (fieldsFit_apart c.layout.srsCtlFit 4 0 (by simp) (by simp) (by simp))
@[simp] theorem srsHss_putPss (c : Config) (w : Word) (v : BitVec 4) :
    srsHss c (putField w c.layout.pss v) = srsHss c w :=
  extract_putField_other w _ v _ 4 c.layout.pss_le
    (fieldsFit_apart c.layout.srsCtlFit 4 1 (by simp) (by simp) (by simp))
@[simp] theorem srsHss_putEss (c : Config) (w : Word) (v : BitVec 4) :
    srsHss c (putField w c.layout.ess v) = srsHss c w :=
  extract_putField_other w _ v _ 4 c.layout.ess_le
    (fieldsFit_apart c.layout.srsCtlFit 4 2 (by simp) (by simp) (by simp))
@[simp] theorem srsHss_putEicss (c : Config) (w : Word) (v : BitVec 4) :
    srsHss c (putField w c.layout.eicss v) = srsHss c w :=
  extract_putField_other w _ v _ 4 c.layout.eicss_le
    (fieldsFit_apart c.layout.srsCtlFit 4 3 (by simp) (by simp) (by simp))

/-! Fields of Status after a write of EXL, ERL or KSU. -/

@[simp] theorem statusExl_putExl (c : Config) (w : Word) (b : Bool) :
    statusExl c (putBit w c.layout.exl b) = b := by
  rw [statusExl, getLsbD_putBit _ _ _ _ c.layout.exl_lt, if_pos rfl]
@[simp] theorem statusIe_putExl (c : Config) (w : Word) (b : Bool) :
    statusIe c (putBit w c.layout.exl b) = statusIe c w := by
  rw [statusIe, getLsbD_putBit _ _ _ _ c.layout.exl_lt, if_neg, statusIe]
  exact apart_ne (fieldsFit_apart c.layout.statusFit 0 1 (by simp) (by simp) (by simp))
@[simp] theorem statusErl_putExl (c : Config) (w : Word) (b : Bool) :
    statusErl c (putBit w c.layout.exl b) = statusErl c w := by
  rw [statusErl, getLsbD_putBit _ _ _ _ c.layout.exl_lt, if_neg, statusErl]
  exact apart_ne (fieldsFit_apart c.layout.statusFit 2 1 (by simp) (by simp) (by simp))
@[simp] theorem statusKsu_putExl (c : Config) (w : Word) (b : Bool) :
    statusKsu c (putBit w c.layout.exl b) = statusKsu c w :=
  extract_putBit_other w _ b _ 2 c.layout.exl_lt
    (fieldsFit_apart c.layout.statusFit 3 1 (by simp) (by simp) (by simp))
@[simp] theorem statusBev_putExl (c : Config) (w : Word) (b : Bool) :
    statusBev c (putBit w c.layout.exl b) = statusBev c w := by
  rw [statusBev, getLsbD_putBit _ _ _ _ c.layout.exl_lt, if_neg, statusBev]
  exact apart_ne (fieldsFit_apart c.layout.statusFit 4 1 (by simp) (by simp) (by simp))
@[simp] theorem statusCu0_putExl (c : Config) (w : Word) (b : Bool) :
    statusCu0 c (putBit w c.layout.exl b) = statusCu0 c w := by
  rw [statusCu0, getLsbD_putBit _ _ _ _ c.layout.exl_lt, if_neg, statusCu0]
  exact apart_ne (fieldsFit_apart c.layout.statusFit 5 1 (by simp) (by simp) (by simp))
@[simp] theorem statusErl_putErl (c : Config) (w : Word) (b : Bool) :
    statusErl c (putBit w c.layout.erl b) = b := by
  rw [statusErl, getLsbD_putBit _ _ _ _ c.layout.erl_lt, if_pos rfl]
@[simp] theorem statusIe_putErl (c : Config) (w : Word) (b : Bool) :
    statusIe c (putBit w c.layout.erl b) = statusIe c w := by
  rw [statusIe, getLsbD_putBit _ _ _ _ c.layout.erl_lt, if_neg, statusIe]
  exact apart_ne (fieldsFit_apart c.layout.statusFit 0 2 (by simp) (by simp) (by simp))
@[simp] theorem statusExl_putErl (c : Config) (w : Word) (b : Bool) :
    statusExl c (putBit w c.layout.erl b) = statusExl c w := by
  rw [statusExl, getLsbD_putBit _ _ _ _ c.layout.erl_lt, if_neg, statusExl]
  exact apart_ne (fieldsFit_apart c.layout.statusFit 1 2 (by simp) (by simp) (by simp))
@[simp] theorem statusKsu_putErl (c : Config) (w : Word) (b : Bool) :
    statusKsu c (putBit w c.layout.erl b) = statusKsu c w :=
  extract_putBit_other w _ b _ 2 c.layout.erl_lt
    (fieldsFit_apart c.layout.statusFit 3 2 (by simp) (by simp) (by simp))
@[simp] theorem statusBev_putErl (c : Config) (w : Word) (b : Bool) :
    statusBev c (putBit w c.layout.erl b) = statusBev c w := by
  rw [statusBev, getLsbD_putBit _ _ _ _ c.layout.erl_lt, if_neg, statusBev]
  exact apart_ne (fieldsFit_apart c.layout.statusFit 4 2 (by simp) (by simp) (by simp))
@[simp] theorem statusBev_putBev (c : Config) (w : Word) (b : Bool) :
    statusBev c (putBit w c.layout.bev b) = b := by
  rw [statusBev, getLsbD_putBit _ _ _ _ c.layout.bev_lt, if_pos rfl]
@[simp] theorem statusCu0_putErl (c : Config) (w : Word) (b : Bool) :
    statusCu0 c (putBit w c.layout.erl b) = statusCu0 c w := by
  rw [statusCu0, getLsbD_putBit _ _ _ _ c.layout.erl_lt, if_neg, statusCu0]
  exact apart_ne (fieldsFit_apart c.layout.statusFit 5 2 (by simp) (by simp) (by simp))
@[simp] theorem statusKsu_putKsu (c : Config) (w : Word) (v : BitVec 2) :
    statusKsu c (putField w c.layout.ksu v) = v :=
  extract_putField_same w _ v c.layout.ksu_le
@[simp] theorem statusExl_putKsu (c : Config) (w : Word) (v : BitVec 2) :
    statusExl c (putField w c.layout.ksu v) = statusExl c w := by
  rw [statusExl, getLsbD_putField _ _ _ _ c.layout.ksu_le, if_neg, statusExl]
  have := fieldsFit_apart c.layout.statusFit 1 3 (by simp) (by simp) (by simp)
  simp only [List.getElem_cons_succ, List.getElem_cons_zero] at this
  omega

/-! The priority fields of Status and Cause. -/

/-- R27, R40: IPL reads back as the priority written, cut to IPLW bits. -/
theorem statusIpl_putStatusIpl (c : Config) (w : Word) (v : BitVec 8) :
    statusIpl c (putStatusIpl c w v) = clipIpl c v :=
  BitVec.eq_of_getLsbD_eq fun i hi => by
    rw [statusIpl, putStatusIpl, gatherBits_scatterBits _ _ _ _ c.layout.ipl_lt (fun _ _ => c.layout.ipl_ne)
      ⟨i, hi⟩, getLsbD_clipIpl c v ⟨i, hi⟩]

/-- R28, R110: Cause.RIPL reads back as the priority written, cut to IPLW bits. -/
theorem causeRipl_putCauseRipl (c : Config) (w : Word) (v : BitVec 8) :
    causeRipl c (putCauseRipl c w v) = clipIpl c v :=
  BitVec.eq_of_getLsbD_eq fun i hi => by
    rw [causeRipl, putCauseRipl,
      gatherBits_scatterBits _ _ _ _ c.layout.ripl_lt (fun _ _ => c.layout.ripl_ne) ⟨i, hi⟩,
      getLsbD_clipIpl c v ⟨i, hi⟩]

/-- The write of IPL leaves every other bit of Status. -/
theorem getLsbD_putStatusIpl (c : Config) (w : Word) (v : BitVec 8) (n : Nat) (h : ¬ isIplBit c n) :
    (putStatusIpl c w v).getLsbD n = w.getLsbD n :=
  getLsbD_scatterBits_other _ _ _ _ _ c.layout.ipl_lt fun i hi e => h ⟨i, hi, e⟩

/-- The write of RIPL leaves every other bit of Cause. -/
theorem getLsbD_putCauseRipl (c : Config) (w : Word) (v : BitVec 8) (n : Nat) (h : ¬ isRiplBit c n) :
    (putCauseRipl c w v).getLsbD n = w.getLsbD n :=
  getLsbD_scatterBits_other _ _ _ _ _ c.layout.ripl_lt fun i hi e => h ⟨i, hi, e⟩

/-- IPL is apart from EXL. -/
@[simp] theorem statusIpl_putExl (c : Config) (w : Word) (b : Bool) :
    statusIpl c (putBit w c.layout.exl b) = statusIpl c w :=
  gatherBits_congr _ _ _ _ fun i => by
    rw [getLsbD_putBit _ _ _ _ c.layout.exl_lt, if_neg]
    exact (apart_ne (c.layout.ipl_apart 1 (by omega) i)).symm

/-- IPL is apart from KSU. -/
@[simp] theorem statusIpl_putKsu (c : Config) (w : Word) (v : BitVec 2) :
    statusIpl c (putField w c.layout.ksu v) = statusIpl c w :=
  gatherBits_congr _ _ _ _ fun i => by
    rw [getLsbD_putField _ _ _ _ c.layout.ksu_le, if_neg]
    have := c.layout.ipl_apart 3 (by omega) i
    simp only [List.getElem_cons_succ, List.getElem_cons_zero] at this
    omega

/-- RIPL is apart from Cause.IC. -/
@[simp] theorem causeRipl_putIc (c : Config) (w : Word) (b : Bool) :
    causeRipl c (putBit w c.layout.ic b) = causeRipl c w :=
  gatherBits_congr _ _ _ _ fun i => by
    rw [getLsbD_putBit _ _ _ _ c.layout.ic_lt, if_neg]
    exact (apart_ne (c.layout.ripl_apart 2 (by omega) i)).symm

/-- The write of RIPL keeps Cause.IV. -/
@[simp] theorem causeIv_putCauseRipl (c : Config) (w : Word) (v : BitVec 8) :
    causeIv c (putCauseRipl c w v) = causeIv c w :=
  getLsbD_scatterBits_other _ _ _ _ _ c.layout.ripl_lt fun i _ =>
    (apart_ne (c.layout.ripl_apart 1 (by omega) i)).symm

@[simp] theorem causeIc_putIc (c : Config) (w : Word) (b : Bool) : causeIc c (putBit w c.layout.ic b) = b := by
  rw [causeIc, getLsbD_putBit _ _ _ _ c.layout.ic_lt, if_pos rfl]
@[simp] theorem causeIv_putIc (c : Config) (w : Word) (b : Bool) :
    causeIv c (putBit w c.layout.ic b) = causeIv c w := by
  rw [causeIv, getLsbD_putBit _ _ _ _ c.layout.ic_lt, if_neg, causeIv]
  exact apart_ne (fieldsFit_apart c.layout.causeFit 1 2 (by simp) (by simp) (by simp))
@[simp] theorem causeIv_putIv (c : Config) (w : Word) (b : Bool) : causeIv c (putBit w c.layout.iv b) = b := by
  rw [causeIv, getLsbD_putBit _ _ _ _ c.layout.iv_lt, if_pos rfl]

/-! Taking an exception. -/

/-- Each bit of Cause after the default entry, but of ExcCode and CE: BD is cleared with EXL 0 (R140). -/
theorem getLsbD_trapCause (c : Config) (e : Exc) (status cause : Word) (n : Nat)
    (h1 : ¬ inField c.layout.excCode 5 n) (h2 : ¬ inField c.layout.ce 2 n) :
    (trapCause c e status cause).getLsbD n =
      if statusExl c status = false ∧ n = c.layout.bd then false else cause.getLsbD n := by
  have hb := c.layout.excCode_le
  have hc := c.layout.ce_le
  have hd : c.layout.bd < 32 := c.layout.bd_lt
  have h : (putField (if statusExl c status then cause else putBit cause c.layout.bd false) c.layout.excCode
      e.code).getLsbD n = if statusExl c status = false ∧ n = c.layout.bd then false else cause.getLsbD n := by
    rw [getLsbD_putField _ _ _ _ hb, if_neg h1]
    cases statusExl c status
    · simp [getLsbD_putBit _ _ _ _ hd, -BitVec.getLsbD_eq_getElem]
    · simp
  unfold trapCause
  cases e <;> simp only [h]
  rw [getLsbD_putField _ _ _ _ hc, if_neg h2, h]

/-- Exception entry keeps Cause.IV (R140). -/
@[simp] theorem causeIv_trapCause (c : Config) (e : Exc) (status cause : Word) :
    causeIv c (trapCause c e status cause) = causeIv c cause := by
  have h1 := fieldsFit_apart c.layout.causeFit 1 0 (by simp) (by simp) (by simp)
  have h2 := fieldsFit_apart c.layout.causeFit 1 3 (by simp) (by simp) (by simp)
  have h3 := fieldsFit_apart c.layout.causeFit 1 4 (by simp) (by simp) (by simp)
  simp only [List.getElem_cons_succ, List.getElem_cons_zero] at h1 h2 h3
  rw [causeIv, getLsbD_trapCause _ _ _ _ _ (by simp only [inField]; omega) (by simp only [inField]; omega),
    if_neg (by omega), causeIv]

/-- Cause.ExcCode after entry is the exception's code (R140). -/
@[simp] theorem causeExcCode_trapCause (c : Config) (e : Exc) (status cause : Word) :
    causeExcCode c (trapCause c e status cause) = e.code := by
  have hb := c.layout.excCode_le
  have hc := c.layout.ce_le
  unfold causeExcCode trapCause
  cases e <;> simp only [extract_putField_same _ _ _ hb]
  have ha : c.layout.excCode + 5 ≤ c.layout.ce ∨ c.layout.ce + 2 ≤ c.layout.excCode :=
    fieldsFit_apart c.layout.causeFit 0 3 (by simp) (by simp) (by simp)
  rw [extract_putField_other _ _ _ _ _ hc ha, extract_putField_same _ _ _ hb]

/-- SRSCtl after entry: HSS is kept (R140). -/
@[simp] theorem srsHss_trapSrsCtl (s : State) : srsHss s.cfg s.trapSrsCtl = srsHss s.cfg s.srsCtl := by
  unfold State.trapSrsCtl; split <;> simp

@[simp] theorem clipIpl_clipIpl (c : Config) (v : BitVec 8) : clipIpl c (clipIpl c v) = clipIpl c v := by
  unfold clipIpl
  cases c.iplw
  · simp [BitVec.and_assoc]
  · rfl

/-- What the default entry leaves as it was (R140). -/
theorem sameConfiguration_trapEntry (e : Exc) (s : State) : SameConfiguration s (trapEntry e s) :=
  ⟨⟨rfl, rfl, rfl, rfl, rfl, by simp, by simp⟩, rfl, rfl⟩

/-- What every other entry leaves as it was (R28 to R32). -/
theorem sameFixed_otherEntry (n : Nat) (e : Exc) (s : State) : SameFixed s (otherEntry n e s) :=
  ⟨rfl, rfl, rfl, rfl, rfl, by rw [otherEntry_srsCtl]; split <;> simp, causeIv_putIv ..⟩

/-- By another entry a Cache Error sets Status.ERL and keeps PSS (R141). -/
theorem otherEntry_cacheError (n : Nat) (va : Word) (s : State) :
    statusErl s.cfg (otherEntry n (.cacheError va) s).status = true ∧
      srsPss s.cfg (otherEntry n (.cacheError va) s).srsCtl = srsPss s.cfg s.srsCtl := by
  simp [Exc.setsErl]

/-- By another entry an exception other than Cache Error records its code (R130), and saves CSS in PSS where shadow
sets are in use (R141). -/
theorem otherEntry_records (n : Nat) {e : Exc} (s : State) (he : ∀ va, e ≠ .cacheError va) :
    causeExcCode s.cfg (otherEntry n e s).cause = e.code ∧
      (s.savesSet = true → srsPss s.cfg (otherEntry n e s).srsCtl = srsCss s.cfg s.srsCtl) := by
  have hx : e.setsErl = false := by cases e <;> first | rfl | exact absurd rfl (he _)
  have ha := fieldsFit_apart s.cfg.layout.causeFit 0 1 (by simp) (by simp) (by decide)
  refine ⟨?_, fun h => by simp [hx, h]⟩
  rw [otherEntry_cause, hx, causeExcCode, extract_putBit_other _ _ _ _ _ s.cfg.layout.iv_lt
    (by simp at ha; omega)]
  exact extract_putField_same _ _ _ s.cfg.layout.excCode_le

/-- By another entry the address or TLB exception of an IRET load records the address (R131). -/
theorem otherEntry_loadAddr (n : Nat) {e : Exc} (s : State) {va : Word}
    (he : e ∈ [.addressError .load va, .tlbRefill .load va, .tlbInvalid .load va]) :
    (otherEntry n e s).badVAddr = va := by
  simp only [List.mem_cons, List.not_mem_nil, or_false] at he
  rcases he with rfl | rfl | rfl <;> rfl

/-- What every exception leaves as it was, whatever its entry. -/
theorem sameFixed_takeException {e : Exc} {s t : State} (h : takeException e s = .next t) :
    SameFixed s t ∧ SameEic s t ∧ t.stored = s.stored ∧ t.irqIn = s.irqIn ∧ t.resetIn = s.resetIn := by
  rcases takeException_next h with ⟨-, -, rfl, -⟩ | ⟨n, -, rfl, -⟩
  · exact ⟨(sameConfiguration_trapEntry e s).1, ⟨rfl, rfl, rfl⟩, rfl, rfl, rfl⟩
  · exact ⟨sameFixed_otherEntry n e s, ⟨rfl, rfl, rfl⟩, rfl, rfl, rfl⟩

/-! SRSCtl's other bits, and the reset-like events. -/

/-- The write of a field of SRSCtl keeps the other bits zero (R29). -/
theorem srsOthersZero_putField {c : Config} {w : Word} (h : srsOthersZero c w) {lo width : Nat}
    (hf : (lo, width) ∈ c.layout.srsCtlFields) (v : BitVec width) : srsOthersZero c (putField w lo v) := by
  intro n hn
  rw [getLsbD_putField _ _ _ _ (c.layout.srsCtlFit.1 _ hf), if_neg (hn _ hf)]
  exact h n hn

theorem srsOthersZero_rewritten {s : State} (h : srsOthersZero s.cfg s.srsCtl) (r : Rewritten) :
    srsOthersZero s.cfg (s.rewritten r).srsCtl :=
  srsOthersZero_putField (srsOthersZero_putField (srsOthersZero_putField h (by simp) _) (by simp) _) (by simp) _

theorem srsOthersZero_otherEntry {s : State} (h : srsOthersZero s.cfg s.srsCtl) (n : Nat) (e : Exc) :
    srsOthersZero s.cfg (otherEntry n e s).srsCtl := by
  rw [otherEntry_srsCtl]
  split
  · exact srsOthersZero_rewritten h _
  · exact srsOthersZero_putField (srsOthersZero_rewritten h _) (by simp) _

theorem srsOthersZero_trapSrsCtl {s : State} (h : srsOthersZero s.cfg s.srsCtl) :
    srsOthersZero s.cfg s.trapSrsCtl := by
  unfold State.trapSrsCtl
  split
  · exact srsOthersZero_putField (srsOthersZero_putField h (by simp) _) (by simp) _
  · exact h

theorem srsOthersZero_resetEntry {s : State} (h : srsOthersZero s.cfg s.srsCtl) (k : ResetEvent) :
    srsOthersZero s.cfg (resetEntry k s).srsCtl :=
  srsOthersZero_rewritten h _

theorem clipSet_le (c : Config) (w : Word) (v : BitVec 4) : clipSet c w v ≤ srsHss c w := by
  unfold clipSet
  split
  · assumption
  · exact BitVec.le_refl _

/-- The set numbers after a reset-like event: PSS and HSS are kept, and the others name register sets (R160, R22). -/
theorem resetEntry_sets (k : ResetEvent) (s : State) :
    srsPss s.cfg (resetEntry k s).srsCtl = srsPss s.cfg s.srsCtl ∧
      srsHss s.cfg (resetEntry k s).srsCtl = srsHss s.cfg s.srsCtl ∧
      srsCss s.cfg (resetEntry k s).srsCtl ≤ srsHss s.cfg s.srsCtl ∧
      srsEss s.cfg (resetEntry k s).srsCtl ≤ srsHss s.cfg s.srsCtl ∧
      srsEicss s.cfg (resetEntry k s).srsCtl ≤ srsHss s.cfg s.srsCtl ∧
      (k = .reset → srsCss s.cfg (resetEntry k s).srsCtl = 0) := by
  simp only [resetEntry_srsCtl, srsPss_putEicss, srsPss_putEss, srsPss_putCss, srsHss_putEicss, srsHss_putEss,
    srsHss_putCss, srsCss_putEicss, srsCss_putEss, srsCss_putCss, srsEss_putEicss, srsEss_putEss, srsEicss_putEicss,
    clipSet_le, true_and]
  refine ⟨?_, fun h => if_pos h⟩
  split
  · simp [BitVec.le_def]
  · exact clipSet_le ..

/-- Bits 31:30 of EBase after a reset-like event (R31). -/
theorem resetEntry_ebaseTop (k : ResetEvent) (s : State) : (resetEntry k s).ebase.extractLsb' 30 2 = 2 :=
  extract_putField_same _ _ _ (by decide)

/-- Status after a reset-like event: ERL and BEV are set, so the mode is kernel and IRET would act as ERET. -/
theorem resetEntry_statusBits (k : ResetEvent) (s : State) :
    statusErl s.cfg (resetEntry k s).status = true ∧ statusBev s.cfg (resetEntry k s).status = true := by
  simp

/-- Taking an exception sets Status.EXL (R140). -/
theorem statusExl_trapEntry (e : Exc) (s : State) : statusExl s.cfg (trapEntry e s).status = true := by
  rw [trapEntry_status, statusExl_putExl]

end Sys2Proof.Machine
end

