-- ==== Sys2Proof/Laws/Words.lean ====
section
/-! SUPPORT. The bits of a word composed of four bytes (R55), of a byte the atomic instructions change (R90, R91), and
of jump targets and vector bases (R62, R109, R112). -/

namespace Sys2Proof.Machine

/-- R55: the two byte orders list the same bytes in opposite directions. -/
theorem wordOfBytes_big (b0 b1 b2 b3 : Byte) : wordOfBytes true b0 b1 b2 b3 = wordOfBytes false b3 b2 b1 b0 := rfl

/-- Each bit of a little-endian word (R55). -/
theorem getLsbD_wordOfBytes (b0 b1 b2 b3 : Byte) (i : Nat) :
    (wordOfBytes false b0 b1 b2 b3).getLsbD i =
      if i < 8 then b0.getLsbD i else if i < 16 then b1.getLsbD (i - 8)
      else if i < 24 then b2.getLsbD (i - 16) else b3.getLsbD (i - 24) := by
  change (b3 ++ b2 ++ b1 ++ b0 : BitVec (8 + 8 + 8 + 8)).getLsbD i = _
  rw [BitVec.getLsbD_append, BitVec.getLsbD_append, BitVec.getLsbD_append]
  rcases (by omega : i < 8 ∨ (8 ≤ i ∧ i < 16) ∨ (16 ≤ i ∧ i < 24) ∨ 24 ≤ i) with h | h | h | h
  · rw [if_pos h, if_pos h]
  · rw [if_neg (by omega), if_pos (by omega), if_neg (by omega), if_pos (by omega)]
  · rw [if_neg (by omega), if_neg (by omega), if_pos (by omega), if_neg (by omega), if_neg (by omega),
      if_pos (by omega)]
    rfl
  · rw [if_neg (by omega), if_neg (by omega), if_neg (by omega), if_neg (by omega), if_neg (by omega),
      if_neg (by omega)]
    rfl

/-- Splitting a word into its bytes is the inverse of composing it (R55). -/
theorem wordOfBytes_bytesOfWord (be : Bool) (w : Word) :
    wordOfBytes be (bytesOfWord be w).1 (bytesOfWord be w).2.1 (bytesOfWord be w).2.2.1 (bytesOfWord be w).2.2.2 =
      w := by
  have h : wordOfBytes false (w.extractLsb' 0 8) (w.extractLsb' 8 8) (w.extractLsb' 16 8) (w.extractLsb' 24 8) = w := by
    apply BitVec.eq_of_getLsbD_eq
    intro i hi
    rw [getLsbD_wordOfBytes]
    rcases (by omega : i < 8 ∨ (8 ≤ i ∧ i < 16) ∨ (16 ≤ i ∧ i < 24) ∨ 24 ≤ i) with h | h | h | h
    · rw [if_pos h, BitVec.getLsbD_extractLsb']; simp [h]
    · rw [if_neg (by omega), if_pos (by omega), BitVec.getLsbD_extractLsb', Nat.add_sub_cancel' (by omega)]
      simp [show i - 8 < 8 by omega]
    · rw [if_neg (by omega), if_neg (by omega), if_pos (by omega), BitVec.getLsbD_extractLsb',
        Nat.add_sub_cancel' (by omega)]
      simp [show i - 16 < 8 by omega]
    · rw [if_neg (by omega), if_neg (by omega), if_neg (by omega), BitVec.getLsbD_extractLsb',
        Nat.add_sub_cancel' (by omega)]
      simp [show i - 24 < 8 by omega]
  cases be
  · exact h
  · exact h

/-- The bits of a byte after ACLR's change (R90). -/
theorem getLsbD_clearBit {bit : Nat} (h : bit < 8) (b : Byte) (j : Nat) :
    (clearBit bit b).getLsbD j = (decide (j ≠ bit) && b.getLsbD j) := by
  by_cases hj : j < 8
  · interval_cases bit <;> interval_cases j <;> simp [clearBit]
  · simp [BitVec.getLsbD_of_ge, Nat.le_of_not_lt hj]

/-- The bits of a byte after ASET's change (R91). -/
theorem getLsbD_setBit {bit : Nat} (h : bit < 8) (b : Byte) (j : Nat) :
    (setBit bit b).getLsbD j = (decide (j = bit) || b.getLsbD j) := by
  by_cases hj : j < 8
  · interval_cases bit <;> interval_cases j <;> simp [setBit]
  · simp [BitVec.getLsbD_of_ge, Nat.le_of_not_lt hj]; omega

/-- A jump target with bit 0 cleared, as a mask (R109, R112). -/
theorem append_zero_eq_and (t : Word) : (t.extractLsb' 1 31 ++ 0#1 : BitVec (31 + 1)) = t &&& 0xFFFFFFFE := by
  apply BitVec.eq_of_getLsbD_eq
  intro i hi
  rw [BitVec.getLsbD_append]
  interval_cases i <;> simp

/-- A word with bit 0 replaced, as a mask (R114, R140). -/
theorem append_bit_eq_or (t : Word) (b : Bool) :
    (t.extractLsb' 1 31 ++ BitVec.ofBool b : BitVec (31 + 1)) = (t &&& 0xFFFFFFFE) ||| (if b then 1 else 0) := by
  apply BitVec.eq_of_getLsbD_eq
  intro i hi
  rw [BitVec.getLsbD_append]
  cases b <;> interval_cases i <;> simp

/-- The vector base's field of EBase, as a mask (R62). -/
theorem append_zeros_eq_and (t : Word) :
    (t.extractLsb' 12 20 ++ 0#12 : BitVec (20 + 12)) = t &&& 0xFFFFF000 := by
  apply BitVec.eq_of_getLsbD_eq
  intro i hi
  rw [BitVec.getLsbD_append]
  interval_cases i <;> simp

end Sys2Proof.Machine
end

