-- ==== Sys2Proof/Laws/Encoding.lean ====
section
/-! SUPPORT. The decoder and the encoder (R71 to R77): what a decoded word says of its instruction, and the bits of an
encoded word. -/

namespace Sys2Proof.Machine

/-- A masked comparison, bit by bit. -/
theorem mask_eq_iff (w m p : Word) : w &&& m = p ↔ ∀ i < 32, (w.getLsbD i && m.getLsbD i) = p.getLsbD i := by
  constructor
  · intro h i _; rw [← h, BitVec.getLsbD_and]
  · intro h; apply BitVec.eq_of_getLsbD_eq; intro i hi; rw [BitVec.getLsbD_and]; exact h i hi

/-- Everything the decoder can answer with an instruction (R76). -/
theorem decodeWord_instr {w : Word} {i : Instr} (h : decodeWord w = .instr i) :
    (w &&& 0xFC1F8000 = 0x04070000 ∧ i = .aclr (fieldBase w) (fieldBit w) (fieldOffset w)) ∨
    (w &&& 0xFC1F8000 = 0x04078000 ∧ i = .aset (fieldBase w) (fieldBit w) (fieldOffset w)) ∨
    (w = 0x42000038 ∧ i = .iret) := by
  unfold decodeWord at h
  simp only [OpcodeRow.selects, beq_iff_eq] at h
  split at h
  · next hm => cases h; exact .inl ⟨hm, rfl⟩
  · split at h
    · next hm => cases h; exact .inr (.inl ⟨hm, rfl⟩)
    · split at h
      · next hm =>
        cases h
        rw [rowIret, show (0xFFFFFFFF : Word) = BitVec.allOnes 32 by decide, BitVec.and_allOnes] at hm
        exact .inr (.inr ⟨hm, rfl⟩)
      · cases h

/-- The fields of every word are operands in range (R74, R75, R76). -/
theorem fields_fit (w : Word) : operandsFit (fieldBase w) (fieldBit w) (fieldOffset w) := by
  refine ⟨(w.extractLsb' 21 5).isLt, (w.extractLsb' 12 3).isLt, ?_, ?_⟩
  · have := BitVec.le_toInt (w.extractLsb' 0 12)
    unfold fieldOffset; norm_num at this ⊢; omega
  · have := BitVec.toInt_lt (x := w.extractLsb' 0 12)
    unfold fieldOffset; norm_num at this ⊢; omega

/-- Each bit of the operand part of an encoded word (R77). -/
theorem getLsbD_encodeOperands {base bit : Nat} {offset : Int} (h : operandsFit base bit offset) (i : Nat)
    (hi : i < 32) :
    (encodeOperands base bit offset).getLsbD i =
      if i < 12 then (BitVec.ofInt 12 offset).getLsbD i
      else if 12 ≤ i ∧ i < 15 then (BitVec.ofNat 3 bit).getLsbD (i - 12)
      else if 21 ≤ i ∧ i < 26 then (BitVec.ofNat 5 base).getLsbD (i - 21) else false := by
  obtain ⟨hb, hc, ho, ho'⟩ := h
  have e : BitVec.ofInt 32 offset = (BitVec.ofInt 12 offset).signExtend 32 := by
    rw [BitVec.signExtend, BitVec.toInt_ofInt_eq_self (by omega) (by norm_num; omega) (by norm_num; omega)]
  have e1 : BitVec.ofNat 32 base = (BitVec.ofNat 5 base).setWidth 32 :=
    BitVec.eq_of_toNat_eq (by simp; omega)
  have e2 : BitVec.ofNat 32 bit = (BitVec.ofNat 3 bit).setWidth 32 :=
    BitVec.eq_of_toNat_eq (by simp; omega)
  rw [encodeOperands, e, e1, e2]
  generalize BitVec.ofInt 12 offset = o
  generalize BitVec.ofNat 5 base = b
  generalize BitVec.ofNat 3 bit = c
  interval_cases i <;> simp [BitVec.getLsbD_signExtend, -BitVec.getLsbD_eq_getElem]

/-- R92 line 1 on a decoded word: the address is the base register plus the sign-extended low 12 bits (R74). -/
theorem effAddr_fields (s : State) (w : Word) :
    s.effAddr (fieldBase w) (fieldOffset w) =
      s.x (w.extractLsb' 21 5) + (w.extractLsb' 0 12).signExtend 32 := by
  unfold State.effAddr fieldBase fieldOffset
  rw [BitVec.ofNat_toNat, BitVec.setWidth_eq]
  rfl

end Sys2Proof.Machine
end

