-- ==== Sys2Proof/Laws/Registers.lean ====
section
/-! SUPPORT. General registers (R11, R20 to R22): what a read gives after a write. -/

namespace Sys2Proof.Machine

/-- R21. -/
@[simp] theorem State.xs_zero (s : State) (set : BitVec 4) : s.xs set 0#5 = 0#32 := if_pos rfl

/-- A read depends on the register file alone. -/
theorem State.xs_congr {s t : State} (h : t.gpr = s.gpr) (set : BitVec 4) (r : BitVec 5) : t.xs set r = s.xs set r := by
  simp only [State.xs, h]

/-- A read of a register after a write (R11, R21, R22). -/
theorem getElem_writeGpr (gpr : Vector (Vector Word 32) 16) (set set' : BitVec 4) (r r' : BitVec 5) (v : Word) :
    ((writeGpr gpr set r v)[set'.toNat]'set'.isLt)[r'.toNat]'r'.isLt =
      if r ≠ 0 ∧ set' = set ∧ r' = r then v else (gpr[set'.toNat]'set'.isLt)[r'.toNat]'r'.isLt := by
  unfold writeGpr
  by_cases hr : r = 0
  · simp only [hr, ne_eq, not_true_eq_false, false_and, ↓reduceIte]
  · simp only [hr, ne_eq, not_false_eq_true, true_and, ↓reduceIte]
    by_cases hs : set' = set
    · subst hs
      by_cases hr' : r' = r
      · subst hr'; simp
      · have : r.toNat ≠ r'.toNat := fun h => hr' (BitVec.eq_of_toNat_eq h.symm)
        simp [hr', this]
    · have : set.toNat ≠ set'.toNat := fun h => hs (BitVec.eq_of_toNat_eq h.symm)
      simp [hs, this]

/-- `xs[set'][r']` in a state whose register file is `s`'s after one write. -/
theorem State.xs_of_writeGpr {s t : State} {set : BitVec 4} {r : BitVec 5} {v : Word}
    (h : t.gpr = writeGpr s.gpr set r v) (set' : BitVec 4) (r' : BitVec 5) :
    t.xs set' r' = if r ≠ 0 ∧ set' = set ∧ r' = r then v else s.xs set' r' := by
  simp only [State.xs, h, getElem_writeGpr]
  by_cases h0 : r' = 0
  · subst h0
    simp only [if_true]
    split
    · next hc => exact absurd hc.2.2.symm hc.1
    · rfl
  · simp only [if_neg h0]

/-- R22: sets do not alias, and register 0 ignores writes (R21). -/
theorem State.xs_setXs (s : State) (set set' : BitVec 4) (r r' : BitVec 5) (v : Word) :
    (s.setXs set r v).xs set' r' = if r ≠ 0 ∧ set' = set ∧ r' = r then v else s.xs set' r' :=
  State.xs_of_writeGpr rfl set' r'

end Sys2Proof.Machine
end

