-- ==== Sys2Proof/Laws/Exec.lean ====
section
/-! SUPPORT. Everything an instruction and a step can do when they answer a next state, said once. -/

namespace Sys2Proof.Machine

/-- ACLR and ASET go on by their own effect (R90, R91) or by taking their one exception (R95). -/
theorem atomicBit_next {change : Nat → Byte → Byte} {base bit : Nat} {offset : Int} {s t : State}
    (h : atomicBit change base bit offset s = .next t) :
    s.inDelaySlot = false ∧ operandsFit base bit offset ∧
      (t = (s.memWriteByte (s.effAddr base offset) (change bit (s.byteAt (s.effAddr base offset)))).advance ∨
        ∃ e, s.memReadByte (s.effAddr base offset) = .raise e ∧ takeException e s = .next t) := by
  unfold atomicBit at h
  split at h
  · cases h
  · next hd =>
    split at h
    · next hf =>
      refine ⟨by simpa using hd, hf, ?_⟩
      rcases Eff.andThen_next h with ⟨a, ha, hk⟩ | ⟨e, he, ht⟩
      · rcases s.memReadByte_cases (s.effAddr base offset) with ⟨-, hr⟩ | ⟨-, hr⟩ | ⟨-, k, -, hr⟩
        · rw [hr] at ha; cases ha; cases hk; exact .inl rfl
        · rw [hr] at ha; cases ha
        · rw [hr] at ha; cases ha
      · exact .inr ⟨e, he, ht⟩
    · cases h

/-- ACLR and ASET, not in a delay slot and with operands in range, are their one access and its effect (R90, R91). -/
theorem atomicBit_run {change : Nat → Byte → Byte} {base bit : Nat} {offset : Int} {s : State}
    (hd : s.inDelaySlot = false) (hf : operandsFit base bit offset) :
    atomicBit change base bit offset s = (s.memReadByte (s.effAddr base offset)).andThen s fun old =>
      .next (s.memWriteByte (s.effAddr base offset) (change bit old)).advance := by
  rw [atomicBit, if_neg (by simp [hd]), if_pos hf]

/-- The effect of ACLR and ASET where their access goes through (R90, R91). -/
theorem atomicBit_eq {change : Nat → Byte → Byte} {base bit : Nat} {offset : Int} {s : State}
    (hd : s.inDelaySlot = false) (hf : operandsFit base bit offset) (ha : ByteAccessible s (s.effAddr base offset)) :
    atomicBit change base bit offset s =
      .next (s.memWriteByte (s.effAddr base offset) (change bit (s.byteAt (s.effAddr base offset)))).advance := by
  rw [atomicBit_run hd hf, State.memReadByte_ok ha, Eff.andThen_ok]

/-- What one step of IRET's return path does (R105, R100). -/
theorem iretReturn_next {a : Word} {s t : State} (h : iretReturn a s = .next t) :
    (∃ e, takeException e s = .next t) ∨
      ∃ b c, b = s.wordAt (s.x sp + 8) ∧ c = s.wordAt (s.x sp) ∧ srsPss s.cfg b ≤ srsHss s.cfg s.srsCtl ∧
        srsEss s.cfg b ≤ srsHss s.cfg s.srsCtl ∧ t = iretReturnPath a b c s := by
  rcases Eff.andThen_next h with ⟨b, hb, h⟩ | ⟨e, -, h⟩
  · rcases Eff.andThen_next h with ⟨c, hc, h⟩ | ⟨e, -, h⟩
    · split at h
      · cases h
      · next hs =>
        cases h
        rw [not_or, BitVec.not_lt, BitVec.not_lt] at hs
        exact .inr ⟨b, c, State.loadStackWord_value hb, State.loadStackWord_value hc, hs.1, hs.2, rfl⟩
    · exact .inl ⟨e, h⟩
  · exact .inl ⟨e, h⟩

/-- What one step of IRET's chaining path does (R110 to R112). -/
theorem iretChain_next {a : Word} {eic : EicSample} {s t : State} (h : iretChain a eic s = .next t) :
    eic.ss ≤ srsHss s.cfg s.srsCtl ∧ s.isaOnExcUnhoused = false ∧
      ∃ v, (iretChainAccept a eic s).calcIntrptAddress eic = some v ∧ t = (iretChainAccept a eic s).jump v := by
  unfold iretChain at h
  split at h
  · cases h
  · next hs =>
    split at h
    · cases h
    · next hi =>
      dsimp only at h
      split at h
      · cases h
      · next v hv => cases h; exact ⟨by simpa using hs, by simpa using hi, v, hv, rfl⟩

/-- The four ways IRET goes on: an exception, as ERET, the return path, the chaining path (R100). -/
theorem execIret_next {s t : State} (h : execIret s = .next t) :
    s.inDelaySlot = false ∧ s.srsEnabled = true ∧ s.eicModeEnabled = true ∧
      ((∃ e s', (s' = s ∨ s' = s.eicDrawn) ∧ takeException e s' = .next t) ∨
        (s.cp0Usable = true ∧ s.actsAsEret = true ∧ t = eretOperation s) ∨
        (s.cp0Usable = true ∧ s.actsAsEret = false ∧ ∃ a b c s', (s' = s ∨ s' = s.eicDrawn) ∧
          srsPss s.cfg b ≤ srsHss s.cfg s.srsCtl ∧ srsEss s.cfg b ≤ srsHss s.cfg s.srsCtl ∧
          t = iretReturnPath a b c s') ∨
        (s.cp0Usable = true ∧ s.actsAsEret = false ∧ intIce s.cfg s.intCtl = true ∧
          s.eicOut.ss ≤ srsHss s.cfg s.srsCtl ∧
          ∃ a v, (iretChainAccept a s.eicOut s.eicDrawn).calcIntrptAddress s.eicOut = some v ∧
            t = (iretChainAccept a s.eicOut s.eicDrawn).jump v)) := by
  unfold execIret at h
  split at h
  · cases h
  next hd =>
  split at h
  · cases h
  next hen =>
  simp only [Bool.or_eq_true, Bool.not_eq_true', not_or, Bool.not_eq_false] at hen
  refine ⟨by simpa using hd, hen.1, hen.2, ?_⟩
  split at h
  · exact .inl ⟨_, s, .inl rfl, h⟩
  next hu =>
  have hu : s.cp0Usable = true := by simpa using hu
  split at h
  · next ha => cases h; exact .inr (.inl ⟨hu, ha, rfl⟩)
  next ha =>
  have ha : s.actsAsEret = false := by simpa using ha
  rcases Eff.andThen_next h with ⟨a, -, h⟩ | ⟨e, -, h⟩
  · rw [State.clearHazards_eq] at h
    unfold iretSelect at h
    split at h
    · rcases iretReturn_next h with ⟨e, h⟩ | ⟨b, c, -, -, hp, he, rfl⟩
      · exact .inl ⟨e, s, .inl rfl, h⟩
      · exact .inr (.inr (.inl ⟨hu, ha, a, b, c, s, .inl rfl, hp, he, rfl⟩))
    · next hi =>
      split at h
      · rcases iretReturn_next h with ⟨e, h⟩ | ⟨b, c, -, -, hp, he, rfl⟩
        · exact .inl ⟨e, _, .inr rfl, h⟩
        · exact .inr (.inr (.inl ⟨hu, ha, a, b, c, _, .inr rfl, hp, he, rfl⟩))
      · obtain ⟨hs, -, v, hv, rfl⟩ := iretChain_next h
        exact .inr (.inr (.inr ⟨hu, ha, by simpa using hi, hs, a, v, hv, rfl⟩))
  · exact .inl ⟨e, s, .inl rfl, h⟩

/-- IRET from its first load on, where it reaches its own rules (R100). -/
theorem execIret_ready {s : State} (h : IretReady s) :
    execIret s = (s.loadStackWord (s.x sp + 4)).andThen s fun a => iretSelect a s := by
  obtain ⟨h1, h2, h3, h4, h5⟩ := h
  rw [execIret, if_neg (by simp [h1]), if_neg (by simp [h2, h3]), if_neg (by simp [h4]), if_neg (by simp [h5])]
  rfl

/-- The return path where its loads go through and its set numbers are in range (R105, R107 to R109). -/
theorem iretReturn_eq {a : Word} {s s' : State} (hs : s' = s ∨ s' = s.eicDrawn) (h8 : WordAccessible s (s.x 29 + 8))
    (h0 : WordAccessible s (s.x 29)) (hi : ImageInRange s) :
    iretReturn a s' = .next (iretReturnPath a (s.wordAt (s.x 29 + 8)) (s.wordAt (s.x 29)) s') := by
  have hx : s'.x sp = s.x 29 := by rcases hs with rfl | rfl <;> rfl
  have hl : ∀ va, s'.loadStackWord va = s.loadStackWord va := by rcases hs with rfl | rfl <;> intro <;> rfl
  have hh : srsHss s'.cfg s'.srsCtl = srsHss s.cfg s.srsCtl := by rcases hs with rfl | rfl <;> rfl
  have hc : s'.cfg = s.cfg := by rcases hs with rfl | rfl <;> rfl
  rw [iretReturn, hx, hl, State.loadStackWord_ok h8, Eff.andThen_ok, hl, State.loadStackWord_ok h0, Eff.andThen_ok,
    if_neg (by rw [not_or, BitVec.not_lt, BitVec.not_lt, hh, hc]; exact hi)]

/-- IRET on its return path is the one operation `iretReturnPath`, after a sample was taken if ICE is 1 (R100). -/
theorem execIret_return {s : State} (h : ReturnReady s) :
    ∃ s', (s' = s ∧ intIce s.cfg s.intCtl = false ∨ s' = s.eicDrawn ∧ intIce s.cfg s.intCtl = true) ∧
      execIret s =
        .next (iretReturnPath (s.wordAt (s.x 29 + 4)) (s.wordAt (s.x 29 + 8)) (s.wordAt (s.x 29)) s') := by
  obtain ⟨hr, ⟨h4, h8, h0⟩, hret, hi⟩ := h
  rw [execIret_ready hr, State.loadStackWord_ok h4, Eff.andThen_ok, iretSelect]
  cases hice : intIce s.cfg s.intCtl
  · exact ⟨s, .inl ⟨rfl, rfl⟩, by rw [if_pos (by simp)]; exact iretReturn_eq (.inl rfl) h8 h0 hi⟩
  · refine ⟨s.eicDrawn, .inr ⟨rfl, rfl⟩, ?_⟩
    have hn : s.noChain (s.wordAt (s.x sp + 4)) s.eicOut = true := by
      rw [State.noChain, hice]
      simpa using hret.resolve_left (by simp [hice])
    rw [if_neg (by simp), if_pos hn]
    exact iretReturn_eq (.inr rfl) h8 h0 hi

/-- Under Config3.VEIC the interrupt vector has a value: the lost arm is not needed (R115). -/
theorem State.calcIntrptAddress_some {s : State} (h : cfg3Veic s.cfg s.config3 = true) (eic : EicSample) :
    ∃ v, s.calcIntrptAddress eic = some v := by
  simp only [State.calcIntrptAddress, State.vectorOffset, vectorNum, h]
  cases causeIv s.cfg s.cause <;> simp
  split
  · simp
  · cases s.cfg.eicOption <;> simp

/-- IRET on its chaining path is `iretChainAccept` and the jump to the vector (R100, R110 to R112). -/
theorem execIret_chain {s : State} (h : ChainReady s) :
    ∃ v, (iretChainAccept (s.wordAt (s.x 29 + 4)) s.eicOut s.eicDrawn).calcIntrptAddress s.eicOut = some v ∧
      execIret s = .next ((iretChainAccept (s.wordAt (s.x 29 + 4)) s.eicOut s.eicDrawn).jump v) := by
  obtain ⟨hr, h4, hret, hss, hi⟩ := h
  have hi' : s.eicDrawn.isaOnExcUnhoused = false := hi
  obtain ⟨v, hv⟩ := State.calcIntrptAddress_some
    (s := iretChainAccept (s.wordAt (s.x 29 + 4)) s.eicOut s.eicDrawn) hr.2.2.1 s.eicOut
  refine ⟨v, hv, ?_⟩
  rw [not_or] at hret
  have hice : intIce s.cfg s.intCtl = true := by simpa using hret.1
  have hn : s.noChain (s.wordAt (s.x sp + 4)) s.eicOut = false := by
    rw [State.noChain, hice]
    simpa using hret.2
  rw [execIret_ready hr, State.loadStackWord_ok h4, Eff.andThen_ok, iretSelect, if_neg (by simp [hice]),
    if_neg (by rw [hn]; exact Bool.false_ne_true), iretChain, if_neg (by simpa using hss), if_neg (by simp [hi'])]
  dsimp only
  rw [hv]

/-- A step goes on by a reset-like event, by taking a fetch's exception or by executing the instruction at the pc. -/
theorem step_next {s t : State} (h : step s = .next t) :
    s.isaOnExcUnhoused = false ∧
      (TookReset s t ∨ (s.resetEvent = none ∧ s.interruptDue = false ∧
        ((∃ e, takeException e s.boundaryPassed = .next t) ∨
          ∃ i, decodeWord (s.wordAt s.pc) = .instr i ∧ exec i s.boundaryPassed = .next t))) := by
  unfold step at h
  split at h
  · cases h
  next hi =>
  refine ⟨by simpa using hi, ?_⟩
  split at h
  · next k hk => cases h; exact .inl ⟨k, hk, rfl⟩
  next hr =>
  split at h
  · cases h
  next hd =>
  refine .inr ⟨hr, by simpa using hd, ?_⟩
  rcases Eff.andThen_next h with ⟨w, hw, h⟩ | ⟨e, -, h⟩
  · rw [State.fetch_boundaryPassed] at hw
    rcases s.fetch_cases with ⟨hf, -⟩ | ⟨hf, -⟩ | ⟨k, hf, -⟩ | ⟨r, hf⟩ <;> rw [hf] at hw <;> cases hw
    unfold execWord at h
    split at h
    · next i hi => exact .inr ⟨i, hi, h⟩
    · cases h
  · exact .inl ⟨e, h⟩

/-- A reset-like event is taken before an interrupt and before the fetch (R160). -/
theorem step_reset {s : State} {k : ResetEvent} (h1 : s.isaOnExcUnhoused = false) (h2 : s.resetEvent = some k) :
    step s = .next (resetEntry k s.boundaryPassed) := by
  rw [step, if_neg (by simp [h1]), h2]

/-- Where the configuration is accepted, no reset-like event arrives and no interrupt is due, a step is its fetch and
what the word does (R69). -/
theorem step_run {s : State} (h1 : s.isaOnExcUnhoused = false) (h2 : s.resetEvent = none)
    (h3 : s.interruptDue = false) :
    step s = s.fetch.andThen s.boundaryPassed fun w => execWord w s.boundaryPassed := by
  rw [step, if_neg (by simp [h1]), h2]
  dsimp only
  rw [if_neg (by simp [h3]), State.fetch_boundaryPassed]

/-- Where the fetch goes through, a step executes the word at the pc (R69, R76). -/
theorem step_of_fetchReady {s : State} (h : FetchReady s) : step s = execWord (s.wordAt s.pc) s.boundaryPassed := by
  obtain ⟨h1, h2, h3, h4, h5, h6, h7⟩ := h
  rw [step_run h1 h2 h3]
  have : s.fetch = .ok (s.wordAt s.pc) := by
    rw [State.fetch, if_neg (by simp [h4]), if_pos h5, h6]
    simp [h7]
  rw [this, Eff.andThen_ok]

end Sys2Proof.Machine
end

