-- ==== Sys2Proof/Laws/PerInstr.lean ====
section
/-! SUPPORT. Statements made of every instruction, one lemma per constructor. -/

open Sys2Proof Sys2Proof.Machine

/-- The encoding of a well-formed instruction has the fixed bits of its own row of the opcode map (R76). -/
def Sys2Proof.Laws.EncodeMatches.Statement (i : Instr) : Prop :=
  i.WellFormed →
    match i with
    | .aclr _ _ _ => encode i &&& 0xFC1F8000 = 0x04070000
    | .aset _ _ _ => encode i &&& 0xFC1F8000 = 0x04078000
    | .iret => encode i = 0x42000038

theorem Sys2Proof.Laws.EncodeMatches.aclr (base bit : Nat) (offset : Int) :
    Sys2Proof.Laws.EncodeMatches.Statement (.aclr base bit offset) := by
  intro h
  change (0x04070000 ||| encodeOperands base bit offset) &&& 0xFC1F8000 = 0x04070000
  refine (mask_eq_iff _ _ _).2 fun i hi => ?_
  rw [BitVec.getLsbD_or, getLsbD_encodeOperands h i hi]
  interval_cases i <;> simp

theorem Sys2Proof.Laws.EncodeMatches.aset (base bit : Nat) (offset : Int) :
    Sys2Proof.Laws.EncodeMatches.Statement (.aset base bit offset) := by
  intro h
  change (0x04078000 ||| encodeOperands base bit offset) &&& 0xFC1F8000 = 0x04078000
  refine (mask_eq_iff _ _ _).2 fun i hi => ?_
  rw [BitVec.getLsbD_or, getLsbD_encodeOperands h i hi]
  interval_cases i <;> simp

theorem Sys2Proof.Laws.EncodeMatches.iret : Sys2Proof.Laws.EncodeMatches.Statement .iret := fun _ => rfl
end

