-- ==== Sys2Proof/Tests/Slice0.lean ====
section
/-! SUPPORT. The model's own tests: ill-formed terms, words written out from the encoding, the vectors of
95_test_vectors, and for every obligation with hypotheses a state and operands that meet them (each theorem's comment
names the obligation). Every expected value is the spec's. -/

namespace Sys2Proof.Tests

open Sys2Proof Sys2Proof.Machine

/-! Small states. -/

/-- The conventions of 95_test_vectors: IE 1, LLbit 1, IRET's vectors start at 0x80001000. -/
def base : State := { State.reset with pc := 0x80001000, status := 1, llBit := true }

/-- The start of V12 and V13 with the given byte at 0x80002010. -/
def v12 (b : Byte) : State := { base.setXs 0 4 0x80002000 with mem := Memory.write [] 0x80002010 b }

/-- A state with a stack frame at `sp` in register set 2. -/
def withFrame (s : State) (sp epc status srsCtl : Word) : State :=
  (((s.setXs 2 29 sp).placeWord sp epc).placeWord (sp + 4) status).placeWord (sp + 8) srsCtl

/-- V20: the return path. -/
def v20On (cfg : Config) (status srsCtl : Word) : State :=
  withFrame { base with status := 3, cause := 0x00800800, srsCtl := 0x0C000002, intCtl := 0x00034020,
                        epc := 0xDEADBEE0, cfg := cfg } 0x80003FF4 0x80000400 status srsCtl

def v20 : State := v20On Config.initial 0x00000401 0x00000040

/-- V21: the chaining path, with the sample and the Status image given. -/
def v21On (eic : EicSample) (status : Word) : State :=
  withFrame { base with status := 0x803, cause := 0x00800800, srsCtl := 0x0C000042, intCtl := 0x0024C020,
                        epc := 0x80000400, eicIn := [eic] } 0x80003FF0 0x80000400 status 0x00000040

def v21 : State := v21On ⟨5, 3, 0, 0⟩ 0x00000403

/-- The initial parameters with one always-failing translation. -/
def faultAt (acc : Access) (va : Word) (k : TransFault) : Config :=
  { Config.initial with faults := [⟨⟨0, 0, 0, 0⟩, some acc, va, va, k⟩] }

/-- The initial parameters with one watchpoint. -/
def watchAt (va : Word) : Config := { Config.initial with watches := [⟨va, va, none, none⟩] }

/-- The initial parameters with one error of the platform. -/
def errorAt (va : Nat) (k : DataErrorKind) : Config := { Config.initial with dataErrors := [⟨va, va, k⟩] }

/-- The initial parameters with the open functions of R5 other than their defaults. -/
def openFns : Config :=
  { Config.initial with translate := .other 0, cp0Usable := .other 0, trapEntry := .other 0 }

/-- A layout other than the default: EXL and ERL of Status, and CSS and PSS of SRSCtl, exchanged. -/
def swapped : Layout :=
  { Positions.standard with exl := 2, erl := 1, css := 6, pss := 0, statusFit := by decide, causeFit := by decide,
                            srsCtlFit := by decide, intCtlFit := by decide, config3Fit := by decide }

/-- The initial parameters with microMIPS. -/
def micro : Config := { Config.initial with hasMicroMIPS := true }

def onNext (o : Out) (p : State → Bool) : Bool :=
  match o with
  | .next t => p t
  | _ => false

def refusedBy (o : Out) (r : Refusal) : Bool :=
  match o with
  | .refused r' => r' == r
  | _ => false

/-! Ill-formed terms, one for each bound of R77. -/

theorem test_ill_formed_base : ¬ (Instr.aclr 32 0 0).WellFormed := by decide
theorem test_ill_formed_bit : ¬ (Instr.aset 0 8 0).WellFormed := by decide
theorem test_ill_formed_low_offset : ¬ (Instr.aclr 0 0 (-2049)).WellFormed := by decide
theorem test_ill_formed_high_offset : ¬ (Instr.aset 0 0 2048).WellFormed := by decide
theorem test_ill_formed_refused : refusedBy (exec (.aset 0 8 0) base) .illFormed = true := by decide

/-! Words written out field by field from the figures of R71 and R72: ACLR, ASET, IRET. -/

theorem test_decode_aclr :
    decodeWord (0b000001#6 ++ 0b00100#5 ++ 0b00111#5 ++ 0b0#1 ++ 0b011#3 ++ 0b000000010000#12) =
      .instr (.aclr 4 3 16) := by decide
theorem test_decode_aset :
    decodeWord (0b000001#6 ++ 0b11101#5 ++ 0b00111#5 ++ 0b1#1 ++ 0b101#3 ++ 0b111111111100#12) =
      .instr (.aset 29 5 (-4)) := by decide
theorem test_decode_iret :
    decodeWord (0b010000#6 ++ 0b1#1 ++ 0b0000000000000000000#19 ++ 0b111000#6) = .instr .iret := by decide

/-- V1 in both byte orders, from bytes (P1's code bytes show the layout). -/
theorem test_decode_bytes :
    decodeBytes false [0x10, 0xB0, 0x87, 0x04] = .instr (.aset 4 3 16) ∧
    decodeBytes true [0x04, 0x87, 0xB0, 0x10] = .instr (.aset 4 3 16) ∧ decodeBytes false [0x38] = .notAWord := by
  decide

/-- V.1: the words the spec lists as refused with NotInScope. -/
theorem test_decode_refused :
    decodeWord 0x04060000 = .notInScope 0x04060000 ∧ decodeWord 0x42000078 = .notInScope 0x42000078 ∧
    decodeWord 0x42000018 = .notInScope 0x42000018 ∧ decodeWord 0x40000038 = .notInScope 0x40000038 ∧
    decodeWord 0x00000000 = .notInScope 0x00000000 := by decide

theorem test_table_words :
    decodeTableWord 32 0x04070000 = some (.aclr 0 0 0) ∧ decodeTableWord 32 0x04078000 = some (.aset 0 0 0) ∧
    decodeTableWord 32 0x42000038 = some .iret := by decide

/-- The three table words run as the first instruction after reset; IRET acts as ERET there. -/
theorem test_first_instruction :
    onNext (step (State.reset.withFetchWord 32 0x04070000)) (fun t => t.pc == 0xBFC00004) = true ∧
    onNext (step (State.reset.withFetchWord 32 0x04078000)) (fun t => t.byteAt 0 == 1) = true ∧
    onNext (step (State.reset.withFetchWord 32 0x42000038)) (fun t => t.status == 0x00400000) = true := by decide

/-! Vectors. -/

/-- V12, V19d: ACLR's byte and next pc; an address that carries into bit 31. -/
theorem test_aclr_v12 :
    onNext (exec (.aclr 4 3 16) (v12 0xFF)) (fun t => t.byteAt 0x80002010 == 0xF7 && t.pc == 0x80001004) = true := by
  decide
theorem test_aclr_v19d :
    onNext (exec (.aclr 6 4 2047) { base.setXs 0 6 0x7FFFF801 with mem := [(0x80000000, 0xFF)] })
      (fun t => t.byteAt 0x80000000 == 0xEF) = true := by decide

/-- V13, V19: ASET's byte; an address that wraps to 0. -/
theorem test_aset_v13 :
    onNext (exec (.aset 4 3 16) (v12 0x00)) (fun t => t.byteAt 0x80002010 == 0x08 && t.pc == 0x80001004) = true := by
  decide
theorem test_aset_v19 :
    onNext (exec (.aset 5 0 1) { base.setXs 0 5 0xFFFFFFFF with mem := [(0, 0xFE)] })
      (fun t => t.byteAt 0 == 0xFF) = true := by decide

/-- V20: pc, Status, SRSCtl and the popped frame of the return path. -/
theorem test_iret_v20 :
    onNext (exec .iret v20) (fun t => t.pc == 0x80000400 && t.status == 0x401 && t.srsCtl == 0x0C000041 &&
      t.xs 2 29 == 0x80004000) = true := by decide

/-- V21: pc, Status, Cause and the stack pointer handed on of the chaining path. -/
theorem test_iret_v21 :
    onNext (exec .iret v21) (fun t => t.pc == 0x800002A0 && t.status == 0x1401 && t.cause == 0x02801400 &&
      t.xs 3 29 == 0x80003FF0) = true := by decide

/-! Witnesses of the encoding obligations. -/

/-- DecodeOfEncode, at the ends of the ranges of R77. -/
theorem test_hyp_decode_of_encode :
    (Instr.aclr 31 7 (-2048)).WellFormed ∧ (Instr.aset 0 0 2047).WellFormed ∧ Instr.iret.WellFormed := by decide

/-- EncodeOfDecode and OffsetIsSignExtended: V5 and V6, the two ends of the offset. -/
theorem test_hyp_decoded :
    decodeWord 0x07E77800 = .instr (.aclr 31 7 (-2048)) ∧ decodeWord 0x040787FF = .instr (.aset 0 0 2047) := by decide

/-- OpcodeMapSelects: a word for each row. -/
theorem test_hyp_opcode_map :
    (0x07E77FFF : Word) &&& 0xFC1F8000 = 0x04070000 ∧ (0x07E7FFFF : Word) &&& 0xFC1F8000 = 0x04078000 := by decide

/-- NearMissesAreRefused: a word for each clause. -/
theorem test_hyp_near_misses :
    ((0x04060000 : Word).extractLsb' 26 6 = 0b000001#6 ∧ (0x04060000 : Word).extractLsb' 16 5 ≠ 0b00111#5) ∧
    ((0x42000078 : Word).extractLsb' 26 6 = 0b010000#6 ∧ (0x42000078 : Word).getLsbD 25 = true ∧
      (0x42000078 : Word).extractLsb' 0 6 = 0b111000#6 ∧ (0x42000078 : Word).extractLsb' 6 19 ≠ 0) ∧
    ((0x42000018 : Word).extractLsb' 26 6 = 0b010000#6 ∧ (0x42000018 : Word).getLsbD 25 = true ∧
      (0x42000018 : Word).extractLsb' 6 19 = 0 ∧ (0x42000018 : Word).extractLsb' 0 6 ≠ 0b111000#6) ∧
    ((0x40000038 : Word).extractLsb' 26 6 = 0b010000#6 ∧ (0x40000038 : Word).getLsbD 25 = false) := by decide

/-! Witnesses of the obligations about a step. -/

/-- StepRunsTheDecodedInstruction, with a request pending that is not due. -/
theorem test_hyp_step_runs :
    let s := { (v12 0xFF).placeWord 0x80001000 0x04873010 with irqIn := [0], resetIn := [none, some .nmi] }
    FetchReady s ∧ decodeWord (s.wordAt s.pc) = .instr (.aclr 4 3 16) := by decide

/-- StepRefusesOtherWords: reset, where memory reads 0. -/
theorem test_hyp_step_refuses :
    FetchReady State.reset ∧ ∀ i, decodeWord (State.reset.wordAt State.reset.pc) ≠ .instr i := by
  have h : decodeWord (State.reset.wordAt State.reset.pc) = .notInScope 0 := by decide
  exact ⟨by decide, fun i hi => by rw [h] at hi; cases hi⟩

/-- MicroMipsFetchIsRefused. -/
theorem test_hyp_micro_fetch :
    let s := { base with cfg := micro, isaMode := true }
    s.isaOnExcUnhoused = false ∧ s.resetEvent = none ∧ s.interruptDue = false ∧ s.cfg.hasMicroMIPS = true ∧
      s.isaMode = true := by
  decide

/-- UnhousedIsaOnExcIsRefused: the chaining IRET of V21 with Config3.ISAOnExc set. -/
theorem test_hyp_unhoused :
    let s := { v21 with config3 := 0x00230040 }
    cfg3IsaOnExc s.cfg s.config3 = true ∧ s.cfg.hasMicroMIPS = false ∧ IretReady s ∧
      WordAccessible s (s.x 29 + 4) ∧ ¬ Returns s ∧ s.eicOut.ss ≤ srsHss s.cfg s.srsCtl := by decide

/-- FetchOfModifiedByteIsRefused: an ASET that goes through, a step with a mark made before it, and a fetch of a word
whose last byte is marked. -/
theorem test_hyp_modified_fetch :
    (ByteAccessible (v12 0) ((v12 0).effAddr 4 16) ∧
      onNext (exec (.aset 4 3 16) (v12 0)) (fun t => t.stored == [0x80002010]) = true) ∧
    onNext (step { (v12 0).placeWord 0x80001000 0x0487B010 with stored := [7] })
      (fun t => t.stored == [7, 0x80002010]) = true ∧
    (let s := { (v12 0).placeWord 0x80001000 0x0487B010 with stored := [0x80001003] }
     FetchReady { s with stored := [] } ∧ s.phys (s.pc + 3) ∈ s.stored) := by decide

/-- MisalignedFetchTraps, under the default entry and under another. -/
theorem test_hyp_misaligned_fetch :
    ∀ s ∈ [{ base with pc := 0x80001002 }, { base with pc := 0x80001001, cfg := openFns }],
      s.isaOnExcUnhoused = false ∧ s.resetEvent = none ∧ s.interruptDue = false ∧
        (s.cfg.hasMicroMIPS && s.isaMode) = false ∧ s.pc.extractLsb' 0 2 ≠ 0 ∧ s.inDelaySlot = false := by decide

/-- FetchTranslationTraps: each of the three exceptions of a fetch's translation. -/
theorem test_hyp_fetch_translation :
    ∀ k ∈ [TransFault.tlbRefill, .tlbInvalid, .addressError],
      let s := { base with cfg := faultAt .fetch 0x80001000 k }
      s.isaOnExcUnhoused = false ∧ s.resetEvent = none ∧ s.interruptDue = false ∧
        (s.cfg.hasMicroMIPS && s.isaMode) = false ∧ s.pc.extractLsb' 0 2 = 0 ∧
        s.translate s.pc .fetch = .fault k ∧ s.cfg.trapEntry = .standard ∧
        s.inDelaySlot = false := by decide

/-- InterruptEndsTheRun: a request one above IPL. -/
theorem test_hyp_interrupt :
    let s := { base with irqIn := [1] }
    s.isaOnExcUnhoused = false ∧ s.resetEvent = none ∧ s.irqIn = 1 :: [] ∧ statusIe s.cfg s.status = true ∧
      statusExl s.cfg s.status = false ∧
      statusErl s.cfg s.status = false ∧ statusIpl s.cfg s.status < clipIpl s.cfg 1 := by decide

/-- InterruptEndsTheRun, its second clause: no request, one equal to IPL, and one met with IE 0, EXL 1 or ERL 1. -/
theorem test_hyp_no_interrupt :
    base.irqIn = [] ∧
    (let s := { base with irqIn := [2], status := 0x801 }
     s.irqIn = 2 :: [] ∧ clipIpl s.cfg 2 ≤ statusIpl s.cfg s.status) ∧
    statusIe Config.initial 0 = false ∧ statusExl Config.initial 3 = true ∧ statusErl Config.initial 5 = true := by
  decide

/-- ResetEventIsTaken: each event, with an interrupt due at the same boundary and a mark of modified code. -/
theorem test_hyp_reset_event :
    ∀ k ∈ [ResetEvent.reset, .softReset, .nmi],
      let s := { base with resetIn := [some k], irqIn := [1], stored := [7] }
      s.isaOnExcUnhoused = false ∧ s.resetEvent = some k ∧ s.interruptDue = true := by decide

/-- R160: a Soft Reset goes on, at G20's 0xBFC00000. -/
theorem test_soft_reset :
    ∃ t, step { base with resetIn := [some .softReset], srsCtl := 0x0C000080 } = .next t ∧ t.pc = 0xBFC00000 :=
  ⟨_, rfl, rfl⟩

/-! Witnesses of the obligations about ACLR and ASET. -/

/-- AclrClearsTheBit, AsetSetsTheBit, AtomicLeavesTheRestAlone (its first clause) and StackWordSeesTheBit, at the ends
of the bit and offset ranges. -/
theorem test_hyp_atomic :
    (v12 0xFF).inDelaySlot = false ∧ operandsFit 4 7 (-2048) ∧
      ByteAccessible (v12 0xFF) ((v12 0xFF).effAddr 4 (-2048)) ∧
      ([0, 1, 2, 3].map fun m : Word =>
        (v12 0xFF).phys (((v12 0xFF).effAddr 4 (-2048) &&& 0xFFFFFFFC) + m)).Nodup ∧
      onNext (exec (.aset 4 7 (-2048)) (v12 0xFF)) (fun t =>
        ([0, 1, 2, 3] : List Word).all fun m =>
          t.phys (0x80001800 + m) == (v12 0xFF).phys (0x80001800 + m)) = true := by decide

/-- DifferentBitsCommute: the two ends of the byte, and a translation the first instruction does not change. -/
theorem test_hyp_commute :
    operandsFit 4 0 (-2048) ∧ (7 ≠ 0) ∧
      onNext (exec (.aclr 4 7 (-2048)) (v12 0xFF)) (fun t =>
        t.translate 0x80001800 .store == (v12 0xFF).translate 0x80001800 .store) = true ∧
      onNext (exec (.aset 4 0 (-2048)) (v12 0xFF)) (fun t =>
        t.translate 0x80001800 .store == (v12 0xFF).translate 0x80001800 .store) = true := by decide

/-- AtomicLeavesTheRestAlone (its last clause), StatusIeIsKept: an instruction that takes an exception. -/
theorem test_hyp_atomic_trap :
    let s := { v12 0 with cfg := faultAt .store 0x80002010 .tlbRefill }
    ¬ ByteAccessible s (s.effAddr 4 16) ∧ onNext (exec (.aset 4 3 16) s) (fun _ => true) = true := by decide

/-- AtomicInDelaySlotIsRefused (V19e). -/
theorem test_hyp_atomic_delay_slot :
    ({ v12 0 with inDelaySlot := true } : State).inDelaySlot = true ∧
      refusedBy (exec (.aset 4 3 16) { v12 0 with inDelaySlot := true }) .atomicInDelaySlot = true := by decide

/-- AtomicRaises: Watch (V19i), and each exception of the translation (V19f to V19h). -/
theorem test_hyp_atomic_watch :
    let s := { v12 0 with cfg := watchAt 0x80002010 }
    s.inDelaySlot = false ∧ operandsFit 4 3 16 ∧ s.watchMatch (s.effAddr 4 16) 1 .store = true := by decide

theorem test_hyp_atomic_translation :
    ∀ k ∈ [TransFault.tlbRefill, .tlbInvalid, .tlbModified, .addressError],
      let s := { v12 0 with cfg := faultAt .store 0x80002010 k }
      s.inDelaySlot = false ∧ operandsFit 4 3 16 ∧ s.watchMatch (s.effAddr 4 16) 1 .store = false ∧
        s.translate (s.effAddr 4 16) .store = .fault k := by decide

/-! Witnesses of the obligations about IRET. -/

/-- IretUndefinedIsRefused: V37, V35, V36. -/
theorem test_hyp_iret_undefined :
    ({ v20 with inDelaySlot := true } : State).inDelaySlot = true ∧
    (v20.inDelaySlot = false ∧ srsHss Config.initial ({ v20 with srsCtl := 0 } : State).srsCtl = 0) ∧
    cfg3Veic Config.initial ({ v20 with config3 := 0x00220000 } : State).config3 = false := by decide

/-- IretNeedsCoprocessorZero: V34; in its first clause each way to be usable. -/
theorem test_hyp_iret_user :
    (let s := { v20 with status := 0x11 }
     s.inDelaySlot = false ∧ s.srsEnabled = true ∧ s.eicModeEnabled = true ∧ s.cp0Usable = false ∧
       s.cfg.trapEntry = .standard ∧ s.cfg.cp0Usable = .standard) ∧
    ({ v20 with status := 0x01 } : State).cp0Usable = true ∧
    ({ v20 with status := 0x13 } : State).cp0Usable = true ∧
    ({ v20 with status := 0x15 } : State).cp0Usable = true ∧
    ({ v20 with status := 0x10000011 } : State).cp0Usable = true := by decide

/-- IretActsAsEret: V22 (APE 0), V23 (ERL and BEV). -/
theorem test_hyp_iret_eret :
    ∀ s ∈ [{ v21 with intCtl := 0x00030020, status := 3 }, { v21 with status := 0x00400004 }],
      s.inDelaySlot = false ∧ s.srsEnabled = true ∧ s.eicModeEnabled = true ∧ s.cp0Usable = true ∧
      (intApe s.cfg s.intCtl = false ∨ statusErl s.cfg s.status = true ∨ statusBev s.cfg s.status = true) := by
  decide

/-- EretOperationReturns: each clause's premise. -/
theorem test_hyp_eret :
    v20.cfg.hasMicroMIPS = false ∧ ({ v20 with cfg := micro } : State).cfg.hasMicroMIPS = true ∧
      statusErl State.reset.cfg State.reset.status = true ∧ statusErl v20.cfg v20.status = false := by decide

/-- IretReturnPathRestores, IretReturnPathJumps: V20 (ICE 0), V24 (ICE 1, equal priorities), and V32b (microMIPS). -/
theorem test_hyp_return :
    ReturnReady v20 ∧ ReturnReady (v21On ⟨5, 3, 0, 0⟩ 0x00001401) ∧
      (ReturnReady (v20On micro 0x00000401 0x00000040)) := by decide

/-- IretReturnsToTheImagesMode: an image with ERL 1, and KSU 0, 1 and 2. -/
theorem test_hyp_return_mode :
    ReturnReady (v20On Config.initial 0x405 0x40) ∧ ReturnReady (v20On Config.initial 0x401 0x40) ∧
    ReturnReady (v20On Config.initial 0x409 0x40) ∧ ReturnReady (v20On Config.initial 0x411 0x40) ∧
    SoundConfig Config.initial := ⟨by decide, by decide, by decide, by decide, by decide⟩

/-- The images of the theorem above, by their modes. -/
theorem test_hyp_return_images :
    statusErl Config.initial 0x405 = true ∧ statusKsu Config.initial 0x401 = 0 ∧
      statusKsu Config.initial 0x409 = 1 ∧ statusKsu Config.initial 0x411 = 2 := by decide

/-- IretChainAccepts, IretChainJumps: V21 (ClrEXL 1), the same with ClrEXL 0, and with microMIPS. -/
theorem test_hyp_chain :
    ChainReady v21 ∧ intClrExl v21.cfg v21.intCtl = true ∧ ChainReady { v21 with intCtl := 0x00244020 } ∧
      ChainReady { v21 with cfg := micro } := by decide

/-- NoChainRule: equal priorities, and an IRET that goes each way. -/
theorem test_hyp_no_chain :
    statusIpl Config.initial 0x00001401 = (⟨5, 3, 0, 0⟩ : EicSample).ripl ∧
    (IretReady v20 ∧ WordAccessible v20 (v20.x 29 + 4) ∧
      v20.noChain (v20.wordAt (v20.x 29 + 4)) v20.eicOut = true) ∧
    (IretReady v21 ∧ WordAccessible v21 (v21.x 29 + 4) ∧
      v21.noChain (v21.wordAt (v21.x 29 + 4)) v21.eicOut = false) := by decide

/-- SetOutOfRangeIsRefused: V42, V42b. -/
theorem test_hyp_out_of_range :
    (let s := v20On Config.initial 0x00000401 0x00000100
     IretReady s ∧ FrameAccessible s ∧ Returns s ∧ ¬ ImageInRange s) ∧
    (let s := v21On ⟨5, 4, 0, 0⟩ 0x00000403
     IretReady s ∧ WordAccessible s (s.x 29 + 4) ∧ ¬ Returns s ∧ srsHss s.cfg s.srsCtl < s.eicOut.ss) := by
  decide

/-- MisalignedStackTraps: V25, and the same address watched. -/
theorem test_hyp_misaligned_stack :
    (let s := v20.setXs 2 29 0x80003FF6
     IretReady s ∧ (s.x 29).extractLsb' 0 2 ≠ 0 ∧ s.watchMatch (s.x 29 + 4) 4 .load = false) ∧
    (let s := { v20.setXs 2 29 0x80003FF6 with cfg := watchAt 0x80003FFA }
     IretReady s ∧ (s.x 29).extractLsb' 0 2 ≠ 0 ∧ s.watchMatch (s.x 29 + 4) 4 .load = true) := by decide

/-- FirstFailingLoadIsTaken: the first load (V25), the second (V44), the third (V45) with ICE 0, and the third with
ICE 1. -/
theorem test_hyp_first_load :
    (let s := v20.setXs 2 29 0x80003FF6
     IretReady s ∧ s.loadStackWord (s.x 29 + 4) = .raise (.addressError .load 0x80003FFA)) ∧
    (let s := { v20 with cfg := faultAt .load 0x80003FFC .tlbInvalid }
     IretReady s ∧ WordAccessible s (s.x 29 + 4) ∧ Returns s ∧
      s.loadStackWord (s.x 29 + 8) = .raise (.tlbInvalid .load 0x80003FFC)) ∧
    (let s := { v20 with cfg := watchAt 0x80003FF4 }
     IretReady s ∧ WordAccessible s (s.x 29 + 4) ∧ Returns s ∧ WordAccessible s (s.x 29 + 8) ∧
      s.loadStackWord (s.x 29) = .raise (.watch 0x80003FF4)) ∧
    (let s := { v21On ⟨5, 3, 0, 0⟩ 0x00001401 with cfg := watchAt 0x80003FF0 }
     intIce s.cfg s.intCtl = true ∧ IretReady s ∧ WordAccessible s (s.x 29 + 4) ∧ Returns s ∧
      WordAccessible s (s.x 29 + 8) ∧ s.loadStackWord (s.x 29) = .raise (.watch 0x80003FF0)) := by decide

/-- The exceptions of the theorem above are not Cache Errors. -/
theorem test_hyp_first_load_kinds (va : Word) :
    Exc.addressError .load 0x80003FFA ≠ .cacheError va ∧ Exc.tlbInvalid .load 0x80003FFC ≠ .cacheError va ∧
      Exc.watch 0x80003FF4 ≠ .cacheError va := ⟨nofun, nofun, nofun⟩

/-- StackLoadExceptions: Watch, and each exception of the translation. -/
theorem test_hyp_stack_translation :
    (let s := { v20 with cfg := watchAt 0x80003FF8 }
     IretReady s ∧ (s.x 29 + 4).extractLsb' 0 2 = 0 ∧ s.watchMatch (s.x 29 + 4) 4 .load = true) ∧
    ∀ k ∈ [TransFault.tlbRefill, .tlbInvalid, .addressError],
      let s := { v20 with cfg := faultAt .load 0x80003FF8 k }
      IretReady s ∧ (s.x 29 + 4).extractLsb' 0 2 = 0 ∧ s.watchMatch (s.x 29 + 4) 4 .load = false ∧
        s.translate (s.x 29 + 4) .load = .fault k := by decide

/-- StackLoadExceptions: Bus Error and Cache Error. -/
theorem test_hyp_stack_error (k : DataErrorKind) :
    let s := { v20 with cfg := errorAt 0x80003FF8 k }
    IretReady s ∧ (s.x 29 + 4).extractLsb' 0 2 = 0 ∧ s.watchMatch (s.x 29 + 4) 4 .load = false ∧
      (∀ j, s.translate (s.x 29 + 4) .load ≠ .fault j) ∧ s.dataError (s.phys (s.x 29 + 4)) = some k := by
  cases k <;> exact ⟨by decide, by decide, by decide, nofun, by decide⟩

/-- IretFrame, IretClearsLlBit: an IRET that goes on by its return path, one that acts as ERET, one that raises. -/
theorem test_hyp_iret_next :
    onNext (exec .iret v20) (fun t => !t.llBit) = true ∧
      onNext (exec .iret State.reset) (fun t => !t.llBit) = true ∧
      State.reset.actsAsEret = true ∧
      onNext (exec .iret { v20 with status := 0x11 }) (fun t => t.llBit) = true := by decide

/-- DefaultFrameSize. -/
theorem test_hyp_frame_size : v20.cfg.stkDecBytes = Config.stkDecDefault := by decide

/-! Witnesses of the remaining obligations. -/

/-- ExceptionEntry: each clause's premise. -/
theorem test_hyp_entry (va : Word) :
    Exc.tlbRefill .load 4 ≠ .cacheError va ∧
    statusExl base.cfg base.status = false ∧ base.cfg.hasMicroMIPS = false ∧
      ({ base with cfg := micro } : State).cfg.hasMicroMIPS = true ∧ base.setsSwitch base.status = true ∧
      (statusExl State.reset.cfg State.reset.status = false ∧ State.reset.setsSwitch State.reset.status = false) ∧
      statusExl v20.cfg v20.status = true := ⟨nofun, by decide⟩

/-- ExceptionEntryLeavesTheRest: an exception without a TLB address, and Coprocessor Unusable. -/
theorem test_hyp_entry_rest (cop : BitVec 2) (va : Word) :
    (Exc.watch 0 ≠ .cacheError va ∧ Exc.coprocessorUnusable 0 ≠ .cacheError va) ∧
      (Exc.watch 0).tlbAddr = none ∧ Exc.watch 0 ≠ .coprocessorUnusable cop ∧
      Exc.coprocessorUnusable 0 = .coprocessorUnusable 0 := ⟨⟨nofun, nofun⟩, rfl, nofun, rfl⟩

/-- RegisterWritesAreExact: the widest field, and bits outside IPL and RIPL. -/
theorem test_hyp_fields :
    26 + 6 ≤ 32 ∧ ¬ isIplBit Config.initial 17 ∧ ¬ isIplBit { Config.initial with iplw := .six } 16 ∧
      ¬ isRiplBit Config.initial 18 ∧ ¬ isRiplBit { Config.initial with iplw := .six } 16 := by decide

/-- DefaultLayoutPositions, with each IPLW. -/
theorem test_hyp_layout :
    Config.initial.layout = Layout.standard ∧ Config.initial.iplw = .eight ∧
      ({ Config.initial with iplw := .six } : Config).layout = Layout.standard := by decide

/-- Another layout moves the fields with it (D4): the return path of V20 with its words rewritten for `swapped`. -/
theorem test_swapped_layout :
    onNext (exec .iret { v20On { Config.initial with layout := swapped } 0x00000405 0x00000001 with
      status := 5, srsCtl := 0x0C000080 }) (fun t => t.status == 0x401 && t.srsCtl == 0x0C000041) = true := by decide

/-- ExceptionIsTaken: the default entry, in a delay slot too, and another. -/
theorem test_hyp_entry_kinds (va : Word) :
    base.cfg.trapEntry = .standard ∧ base.inDelaySlot = false ∧ Exc.watch 0 ≠ .cacheError va ∧
      ({ base with inDelaySlot := true } : State).inDelaySlot = true ∧ openFns.trapEntry = .other 0 ∧
      statusExl base.cfg base.status = false ∧ base.setsSwitch base.status = true ∧
      Exc.tlbInvalid .load va ∈ [Exc.addressError .load va, .tlbRefill .load va, .tlbInvalid .load va] :=
  ⟨by decide, by decide, nofun, rfl, rfl, by decide, by decide, by simp⟩

/-- ByteWriteThenRead: a write that leaves an address where it was. -/
theorem test_hyp_byte_write : ((v12 0).memWriteByte 0x80002010 1).phys 4 = (v12 0).phys 4 := by decide

/-- MemoryStaysCanonical: a memory of two cells. -/
theorem test_hyp_memory_wf : Memory.wf [(4, 1), (7, 255)] := by decide

/-- StepKeepsInvariant, StepKeepsConfiguration, OnlyChainingAcknowledges: the chaining IRET of V21. -/
theorem test_hyp_step_invariant :
    StateInv (v21.placeWord 0x80001000 0x42000038) ∧
      onNext (step (v21.placeWord 0x80001000 0x42000038)) (fun t => t.eicAcks == [⟨5, 3⟩]) = true :=
  ⟨⟨by decide, by decide, by decide, by decide, by decide, by decide, by decide, by decide⟩, by decide⟩

/-- OnlyIretOrExceptionSwitchesSets: the IRET of V20, and an exception of a fetch with ESS 1. -/
theorem test_hyp_switch_sets :
    onNext (step (v20.placeWord 0x80001000 0x42000038))
      (fun t => srsCss t.cfg t.srsCtl != srsCss v20.cfg v20.srsCtl) = true ∧
    onNext (step { base with pc := 0x80001002, srsCtl := 0x0C001000 })
      (fun t => srsCss t.cfg t.srsCtl == 1) = true := by decide

/-- UserModeCannotChangeStatus: an ASET in user mode, and an IRET there. -/
theorem test_hyp_user_mode :
    ({ v20 with status := 0x11 } : State).cp0Usable = false ∧ statusMode Config.initial 0x11 ≠ .kernel ∧
      statusCu0 Config.initial 0x11 = false ∧
      onNext (step ({ v12 0 with status := 0x11 }.placeWord 0x80001000 0x0487B010))
        (fun t => t.status == 0x11) = true ∧
      onNext (step ({ v20 with status := 0x11 }.placeWord 0x80001000 0x42000038))
        (fun t => t.status == 0x13) = true := by
  decide

/-- OnlyAtomicsWriteMemory: a step that changes a byte. -/
theorem test_hyp_memory_written :
    onNext (step ((v12 0).placeWord 0x80001000 0x0487B010)) (fun t =>
      Memory.read t.mem 0x80002010 != Memory.read ((v12 0).placeWord 0x80001000 0x0487B010).mem 0x80002010) = true := by
  decide

end Sys2Proof.Tests
end

section
/-! The encoding obligations (30_encoding): the opcode map of R76 and the offset of R74. -/

namespace Sys2Proof.Machine

/-- The mask that ACLR and ASET share (R76) keeps `w[31:26]`, `w[20:16]` and `w[15]`, and nothing else. -/
theorem and_atomicMask_eq_append (w : Word) :
    w &&& 0xFC1F8000 =
      (w.extractLsb' 26 6 ++ 0#5 ++ w.extractLsb' 16 5 ++ BitVec.ofBool (w.getLsbD 15) ++ 0#15 :
        BitVec (6 + 5 + 5 + 1 + 15)) := by
  apply BitVec.eq_of_getLsbD_eq
  intro i hi
  simp only [BitVec.getLsbD_append]
  interval_cases i <;> simp

/-- Words that agree under a mask agree in every field that the mask keeps whole. -/
theorem extractLsb'_eq_of_and_eq {w p m : Word} {start len : Nat} (h : w &&& m = p &&& m)
    (hm : m.extractLsb' start len = BitVec.allOnes len) : w.extractLsb' start len = p.extractLsb' start len := by
  have hf : (w &&& m).extractLsb' start len = (p &&& m).extractLsb' start len := by rw [h]
  rwa [BitVec.extractLsb'_and, BitVec.extractLsb'_and, hm, BitVec.and_allOnes, BitVec.and_allOnes] at hf

/-- Two words agree under the mask of ACLR and ASET exactly when the three fields it keeps agree (R76). -/
theorem and_atomicMask_eq_iff (w p : Word) :
    w &&& 0xFC1F8000 = p &&& 0xFC1F8000 ↔
      w.extractLsb' 26 6 = p.extractLsb' 26 6 ∧ w.extractLsb' 16 5 = p.extractLsb' 16 5 ∧
        w.getLsbD 15 = p.getLsbD 15 := by
  constructor
  · intro h
    have hsel : (w &&& 0xFC1F8000).getLsbD 15 = (p &&& 0xFC1F8000).getLsbD 15 := by rw [h]
    rw [BitVec.getLsbD_and, BitVec.getLsbD_and, show (0xFC1F8000 : Word).getLsbD 15 = true by decide,
      Bool.and_true, Bool.and_true] at hsel
    exact ⟨extractLsb'_eq_of_and_eq h (by decide), extractLsb'_eq_of_and_eq h (by decide), hsel⟩
  · rintro ⟨hop, hrt, hsel⟩
    rw [and_atomicMask_eq_append, and_atomicMask_eq_append, hop, hrt, hsel]

/-- The mask of IRET compares the whole word (R76). -/
theorem and_iretMask (w : Word) : w &&& 0xFFFFFFFF = w := by
  rw [show (0xFFFFFFFF : Word) = BitVec.allOnes 32 by decide, BitVec.and_allOnes]

/-- The patterns of ACLR and ASET are disjoint (R76). -/
theorem not_aclrPattern_and_asetPattern (w : Word) :
    ¬ (w &&& 0xFC1F8000 = 0x04070000 ∧ w &&& 0xFC1F8000 = 0x04078000) := by
  rintro ⟨hc, hs⟩
  rw [hc] at hs
  exact absurd hs (by decide)

/-- The row of ACLR selects it, with the operands of the fields (R75, R76). -/
theorem decodeWord_of_aclrPattern {w : Word} (h : w &&& 0xFC1F8000 = 0x04070000) :
    decodeWord w = .instr (.aclr (fieldBase w) (fieldBit w) (fieldOffset w)) :=
  if_pos (beq_iff_eq.mpr h)

/-- The row of ASET selects it, with the operands of the fields (R75, R76). -/
theorem decodeWord_of_asetPattern {w : Word} (h : w &&& 0xFC1F8000 = 0x04078000) :
    decodeWord w = .instr (.aset (fieldBase w) (fieldBit w) (fieldOffset w)) := by
  have hc : ¬ rowAclr.selects w := fun hc => not_aclrPattern_and_asetPattern w ⟨beq_iff_eq.mp hc, h⟩
  have hs : rowAset.selects w := beq_iff_eq.mpr h
  rw [decodeWord, if_neg hc, if_pos hs]

/-- The operands of a decoded ACLR or ASET are the fields of its word (R75). -/
theorem operands_of_decodeWord {w : Word} {base bit : Nat} {offset : Int}
    (h : decodeWord w = .instr (.aclr base bit offset) ∨ decodeWord w = .instr (.aset base bit offset)) :
    base = fieldBase w ∧ bit = fieldBit w ∧ offset = fieldOffset w := by
  rcases h with h | h
  · obtain ⟨-, hi⟩ | ⟨-, hi⟩ | ⟨-, hi⟩ := decodeWord_instr h
    · exact Instr.aclr.inj hi
    · cases hi
    · cases hi
  · obtain ⟨-, hi⟩ | ⟨-, hi⟩ | ⟨-, hi⟩ := decodeWord_instr h
    · cases hi
    · exact Instr.aset.inj hi
    · cases hi

/-- Settles O3: each pattern is its own masked word, so the masked comparison is one of fields; the decoder tests the
rows in turn. -/
theorem opcodeMapSelects : Obligations.OpcodeMapSelects := by
  intro w
  refine ⟨and_atomicMask_eq_iff w 0x04070000, and_atomicMask_eq_iff w 0x04078000, ?_,
    decodeWord_of_aclrPattern, decodeWord_of_asetPattern, ?_, not_aclrPattern_and_asetPattern w, ?_, ?_⟩
  · rw [and_iretMask]
  · rintro rfl
    decide
  · rintro ⟨h, rfl⟩
    exact absurd h (by decide)
  · rintro ⟨h, rfl⟩
    exact absurd h (by decide)

/-- Settles O4: the decoded operands are the word's fields, whose range and effective address are known. -/
theorem offsetIsSignExtended : Obligations.OffsetIsSignExtended := by
  intro w base bit offset h
  obtain ⟨rfl, -, rfl⟩ := operands_of_decodeWord h
  obtain ⟨-, -, hlow, hhigh⟩ := fields_fit w
  exact ⟨rfl, hlow, hhigh, fun s => effAddr_fields s w⟩

end Sys2Proof.Machine
end

section
/-! The atomic bit obligations (40_atomic_bit): the refusal of R97. -/

namespace Sys2Proof.Machine

/-- ACLR and ASET are the one operation `atomicBit`, and differ only in how they change the byte (R90, R91). -/
theorem exec_eq_atomicBit {base bit : Nat} {offset : Int} {i : Instr}
    (hi : i ∈ [Instr.aclr base bit offset, Instr.aset base bit offset]) :
    ∃ change, ∀ s, exec i s = atomicBit change base bit offset s := by
  obtain rfl | rfl : i = .aclr base bit offset ∨ i = .aset base bit offset := by simpa using hi
  · exact ⟨clearBit, fun _ => rfl⟩
  · exact ⟨setBit, fun _ => rfl⟩

/-- The delay slot is tested before the operands and the access (R97). -/
theorem atomicBit_of_inDelaySlot {change : Nat → Byte → Byte} {base bit : Nat} {offset : Int} {s : State}
    (hd : s.inDelaySlot = true) : atomicBit change base bit offset s = .refused .atomicInDelaySlot :=
  if_pos hd

/-- Settles O21: both instructions are `atomicBit`, which refuses a delay slot; a refusal is no next state. -/
theorem atomicInDelaySlotIsRefused : Obligations.AtomicInDelaySlotIsRefused := by
  intro base bit offset s i hi hd
  obtain ⟨change, hexec⟩ := exec_eq_atomicBit hi
  have hrefused : exec i s = .refused .atomicInDelaySlot := by rw [hexec, atomicBit_of_inDelaySlot hd]
  exact ⟨hrefused, fun t hnext => by cases hrefused.symm.trans hnext⟩

end Sys2Proof.Machine
end

section
/-! The obligations of IRET's two paths and of the interrupt vector (41_iret). -/

namespace Sys2Proof.Machine

/-- The guard of R103, R108 and R140 as a proposition. -/
theorem State.setsSwitch_iff (s : State) (status : Word) :
    s.setsSwitch status = true ↔
      2 ≤ s.cfg.archRev ∧ 0 < srsHss s.cfg s.srsCtl ∧ statusBev s.cfg status = false := by
  simp [State.setsSwitch, State.srsEnabled, and_assoc]

/-- A sample presented to the core is already cut to IPLW bits (R40). -/
@[simp] theorem clipIpl_eicOut_ripl (s : State) : clipIpl s.cfg s.eicOut.ripl = s.eicOut.ripl :=
  clipIpl_clipIpl s.cfg _

/-! The return path (R107, R108). -/

@[simp] theorem statusExl_returnStatus (s : State) (tempStatus : Word) :
    statusExl s.cfg (s.returnStatus tempStatus) = false :=
  statusExl_putExl s.cfg _ _

@[simp] theorem statusBev_returnStatus (s : State) (tempStatus : Word) :
    statusBev s.cfg (s.returnStatus tempStatus) =
      statusBev s.cfg (writeStatus s.cfg.statusWMask s.status tempStatus) :=
  statusBev_putExl s.cfg _ _

@[simp] theorem srsPss_returnSrsCtl (s : State) (tempStatus tempSRSCtl : Word) :
    srsPss s.cfg (s.returnSrsCtl tempStatus tempSRSCtl) = srsPss s.cfg tempSRSCtl := by
  unfold State.returnSrsCtl
  split <;> simp

@[simp] theorem srsEss_returnSrsCtl (s : State) (tempStatus tempSRSCtl : Word) :
    srsEss s.cfg (s.returnSrsCtl tempStatus tempSRSCtl) = srsEss s.cfg tempSRSCtl := by
  unfold State.returnSrsCtl
  split <;> simp

@[simp] theorem srsHss_returnSrsCtl (s : State) (tempStatus tempSRSCtl : Word) :
    srsHss s.cfg (s.returnSrsCtl tempStatus tempSRSCtl) = srsHss s.cfg s.srsCtl := by
  unfold State.returnSrsCtl
  split <;> simp

@[simp] theorem srsEicss_returnSrsCtl (s : State) (tempStatus tempSRSCtl : Word) :
    srsEicss s.cfg (s.returnSrsCtl tempStatus tempSRSCtl) = srsEicss s.cfg s.srsCtl := by
  unfold State.returnSrsCtl
  split <;> simp

/-- R108: the guard reads the restored Status, whose BEV the clearing of EXL does not touch. -/
theorem srsCss_returnSrsCtl (s : State) (tempStatus tempSRSCtl : Word) :
    srsCss s.cfg (s.returnSrsCtl tempStatus tempSRSCtl) =
      if 2 ≤ s.cfg.archRev ∧ 0 < srsHss s.cfg s.srsCtl ∧ statusBev s.cfg (s.returnStatus tempStatus) = false
      then srsPss s.cfg tempSRSCtl else srsCss s.cfg s.srsCtl := by
  rw [statusBev_returnStatus]
  simp only [State.returnSrsCtl, State.setsSwitch_iff]
  split <;> simp

/-- What the completed return path leaves in the registers it writes, in terms of the state IRET started in: the
sample it may have used up is in none of them. -/
theorem execIret_return_writes {s : State} (h : ReturnReady s) :
    ∃ t, exec .iret s = .next t ∧
      t.gpr = writeGpr s.gpr (srsCss s.cfg s.srsCtl) sp (s.x sp + s.frameSize) ∧
      t.status = s.returnStatus (s.wordAt (s.x 29 + 4)) ∧
      t.srsCtl = s.returnSrsCtl (s.wordAt (s.x 29 + 4)) (s.wordAt (s.x 29 + 8)) ∧ t.epc = s.wordAt (s.x 29) := by
  obtain ⟨s', hs', hexec⟩ := execIret_return h
  refine ⟨_, hexec, ?_⟩
  obtain ⟨rfl, -⟩ | ⟨rfl, -⟩ := hs'
  · exact ⟨rfl, rfl, rfl, rfl⟩
  · exact ⟨rfl, rfl, rfl, rfl⟩

/-- Settles O31: the return path's writes, read field by field. -/
theorem iretReturnPathRestores : Obligations.IretReturnPathRestores := by
  intro s h
  obtain ⟨t, hexec, hgpr, hstatus, hsrs, hepc⟩ := execIret_return_writes h
  refine ⟨t, hexec, fun set r => ?_, ?_⟩
  · rw [State.xs_of_writeGpr hgpr]
    simp
  · rw [hstatus, hsrs, hepc, srsPss_returnSrsCtl]
    exact ⟨rfl, srsEss_returnSrsCtl .., rfl, statusExl_returnStatus .., srsCss_returnSrsCtl ..,
      srsHss_returnSrsCtl .., srsEicss_returnSrsCtl ..⟩

/-! The chaining path (R110, R111). -/

/-- R111: IPL takes the priority accepted, which the clearing of EXL and KSU does not touch. -/
@[simp] theorem statusIpl_chainStatus (s : State) (tempStatus : Word) (eic : EicSample) :
    statusIpl s.cfg (s.chainStatus tempStatus eic) = clipIpl s.cfg eic.ripl := by
  unfold State.chainStatus
  dsimp only
  split <;> simp [statusIpl_putStatusIpl]

/-- R111: with ClrEXL both EXL and KSU are cleared. -/
theorem chainStatus_cleared {s : State} (h : intClrExl s.cfg s.intCtl = true) (tempStatus : Word) (eic : EicSample) :
    statusExl s.cfg (s.chainStatus tempStatus eic) = false ∧ statusKsu s.cfg (s.chainStatus tempStatus eic) = 0 := by
  simp [State.chainStatus, h]

/-- R111: the pointer is popped in the old set, then its old value goes to the new set, which undoes the increment
when the sets are the same. -/
theorem State.xs_of_chain {s t : State} {new : BitVec 4}
    (h : t.gpr = writeGpr (writeGpr s.gpr (srsCss s.cfg s.srsCtl) sp (s.x sp + s.frameSize)) new sp (s.x sp))
    (set : BitVec 4) (r : BitVec 5) :
    t.xs set r =
      if set = new ∧ r = 29 then s.x 29
      else if set = srsCss s.cfg s.srsCtl ∧ r = 29 then s.x 29 + s.frameSize else s.xs set r := by
  rw [← State.setXs_gpr] at h
  rw [State.xs_of_writeGpr h, State.xs_setXs]
  simp

/-- What the completed chaining path leaves in what it writes but the pc and ISAMode, in terms of the state IRET
started in: the sample it has used up is in none of them. -/
theorem execIret_chain_writes {s : State} (h : ChainReady s) :
    ∃ t, exec .iret s = .next t ∧
      t.gpr = writeGpr (writeGpr s.gpr (srsCss s.cfg s.srsCtl) sp (s.x sp + s.frameSize)) s.eicOut.ss sp (s.x sp) ∧
      t.status = s.chainStatus (s.wordAt (s.x 29 + 4)) s.eicOut ∧
      t.cause = putBit (putCauseRipl s.cfg s.cause s.eicOut.ripl) s.cfg.layout.ic true ∧
      t.srsCtl = putField (putField s.srsCtl s.cfg.layout.eicss s.eicOut.ss) s.cfg.layout.css s.eicOut.ss ∧
      t.eicAcks = s.eicAcks ++ [⟨s.eicOut.ripl, s.eicOut.ss⟩] ∧ t.llBit = false ∧ t.epc = s.epc := by
  obtain ⟨v, -, hexec⟩ := execIret_chain h
  exact ⟨_, hexec, rfl, rfl, rfl, rfl, rfl, rfl, rfl⟩

/-- Settles O34: the chaining path's writes, read field by field; the sample's priority survives both its write to
Cause and its write to Status, since it is already cut to IPLW bits. -/
theorem iretChainAccepts : Obligations.IretChainAccepts := by
  intro s h
  obtain ⟨t, hexec, hgpr, hstatus, hcause, hsrs, hacks, hll, hepc⟩ := execIret_chain_writes h
  have hripl : causeRipl s.cfg t.cause = s.eicOut.ripl := by
    rw [hcause, causeRipl_putIc, causeRipl_putCauseRipl, clipIpl_eicOut_ripl]
  have hipl : statusIpl s.cfg t.status = s.eicOut.ripl := by
    rw [hstatus, statusIpl_chainStatus, clipIpl_eicOut_ripl]
  have hclear (hclr : intClrExl s.cfg s.intCtl = true) :
      statusExl s.cfg t.status = false ∧ statusKsu s.cfg t.status = 0 := by
    rw [hstatus]
    exact chainStatus_cleared hclr _ _
  have hic : causeIc s.cfg t.cause = true := by rw [hcause, causeIc_putIc]
  refine ⟨t, hexec, hripl, ?_, hacks, State.xs_of_chain hgpr, hipl.trans hripl.symm, ?_, hclear, hll, hic, ?_, ?_,
    hepc⟩
  all_goals
    rw [hsrs]
    simp

/-! The interrupt vector (R114, R116). -/

/-- R114's base, with the mask of R62. -/
theorem State.vectorBase_eq (s : State) (status : Word) :
    s.vectorBase status =
      if statusBev s.cfg status then 0xBFC00200
      else if 2 ≤ s.cfg.archRev then s.ebase &&& 0xFFFFF000 else 0x80000000 := by
  rw [← append_zeros_eq_and]
  rfl

/-- The vector spacing of R114: five zero bits below VS are a product by 32. -/
theorem append_zeros_eq_mul (vs : BitVec 5) : (vs ++ 0#5).setWidth 32 = vs.setWidth 32 * (32 : Word) := by
  revert vs
  decide

/-- A word with bit 0 set, as an OR (R114). -/
theorem append_one_eq_or (w : Word) : (w.extractLsb' 1 31 ++ 1#1 : BitVec (31 + 1)) = w ||| 1 := by
  apply BitVec.eq_of_getLsbD_eq
  intro i hi
  rw [BitVec.getLsbD_append]
  interval_cases i <;> simp

/-- R114's result where the offset is known: base OR offset (R116), with bit 0 set under ISAOnExc. -/
theorem State.calcIntrptAddress_of_offset {s : State} {eic : EicSample} {offset : Word}
    (h : s.vectorOffset eic = some offset) :
    s.calcIntrptAddress eic =
      some (if cfg3IsaOnExc s.cfg s.config3 then (s.vectorBase s.status ||| offset) ||| 1
        else s.vectorBase s.status ||| offset) := by
  rw [State.calcIntrptAddress, h, ← append_one_eq_or]
  rfl

/-- Settles O37: the offset, arm by arm in the order of R114's chain, gives the result. -/
theorem vectorAddress : Obligations.VectorAddress := by
  intro s eic
  dsimp only
  rw [← State.vectorBase_eq]
  split
  · next hiv => exact State.calcIntrptAddress_of_offset (by simp [State.vectorOffset, hiv])
  next hiv =>
  split
  · next hsingle =>
    have hoffset : s.vectorOffset eic = some 0x200 := by
      rcases hsingle with hbev | hvs
      · simp [State.vectorOffset, hiv, hbev]
      · simp [State.vectorOffset, hiv, hvs]
    exact State.calcIntrptAddress_of_offset hoffset
  next hspaced =>
  obtain ⟨hbev, hvs⟩ : ¬ statusBev s.cfg s.status = true ∧ ¬ intVs s.cfg s.intCtl = 0#5 := not_or.mp hspaced
  split
  · next hveic => simp [State.calcIntrptAddress, State.vectorOffset, vectorNum, hiv, hbev, hvs, hveic]
  next hveic =>
  cases hopt : s.cfg.eicOption
  case option1 =>
    exact State.calcIntrptAddress_of_offset
      (by simp [State.vectorOffset, vectorNum, hiv, hbev, hvs, hveic, hopt, append_zeros_eq_mul])
  case option2 =>
    exact State.calcIntrptAddress_of_offset
      (by simp [State.vectorOffset, vectorNum, hiv, hbev, hvs, hveic, hopt, append_zeros_eq_mul])
  case option3 =>
    exact State.calcIntrptAddress_of_offset (by simp [State.vectorOffset, hiv, hbev, hvs, hveic, hopt])

end Sys2Proof.Machine
end

section
/-! The encoding obligations (30_encoding): the round trips of V.1, the near misses of R79 and the words of V.1. -/

namespace Sys2Proof.Machine

/-- The operands stand at their places in an encoded word (R75, R77). -/
theorem extractLsb'_encodeOperands {base bit : Nat} {offset : Int} (h : operandsFit base bit offset) :
    (encodeOperands base bit offset).extractLsb' 21 5 = BitVec.ofNat 5 base ∧
      (encodeOperands base bit offset).extractLsb' 12 3 = BitVec.ofNat 3 bit ∧
      (encodeOperands base bit offset).extractLsb' 0 12 = BitVec.ofInt 12 offset := by
  refine ⟨?_, ?_, ?_⟩
  all_goals
    apply BitVec.eq_of_getLsbD_eq
    intro i hi
    rw [BitVec.getLsbD_extractLsb', getLsbD_encodeOperands h _ (by omega)]
    interval_cases i <;> simp

/-- The decoded fields of an encoded word are its operands, where the row's pattern has no operand bit (R75, R77). -/
theorem fields_or_encodeOperands {base bit : Nat} {offset : Int} (h : operandsFit base bit offset) {pattern : Word}
    (hpb : pattern.extractLsb' 21 5 = 0) (hpk : pattern.extractLsb' 12 3 = 0) (hpo : pattern.extractLsb' 0 12 = 0) :
    fieldBase (pattern ||| encodeOperands base bit offset) = base ∧
      fieldBit (pattern ||| encodeOperands base bit offset) = bit ∧
      fieldOffset (pattern ||| encodeOperands base bit offset) = offset := by
  obtain ⟨hbase, hbit, hoffset⟩ := extractLsb'_encodeOperands h
  obtain ⟨hb, hk, hlow, hhigh⟩ := h
  simp only [fieldBase, fieldBit, fieldOffset, BitVec.extractLsb'_or, hpb, hpk, hpo, hbase, hbit, hoffset]
  refine ⟨?_, ?_, ?_⟩
  · simpa using hb
  · simpa using hk
  · simpa using BitVec.toInt_ofInt_eq_self (w := 12) (n := offset) (by omega) (by norm_num; omega) (by norm_num; omega)

/-- The round trip from an instruction's word (R76, R77). -/
theorem decodeWord_encode {i : Instr} (h : i.WellFormed) : decodeWord (encode i) = .instr i := by
  cases i with
  | aclr base bit offset =>
    obtain ⟨hb, hk, ho⟩ := fields_or_encodeOperands h (pattern := 0x04070000) rfl rfl rfl
    rw [decodeWord_of_aclrPattern (Laws.EncodeMatches.aclr base bit offset h), encode, hb, hk, ho]
  | aset base bit offset =>
    obtain ⟨hb, hk, ho⟩ := fields_or_encodeOperands h (pattern := 0x04078000) rfl rfl rfl
    rw [decodeWord_of_asetPattern (Laws.EncodeMatches.aset base bit offset h), encode, hb, hk, ho]
  | iret => decide

/-- The bytes of an instruction decode to what its word decodes to, in either byte order (R55, R69). -/
theorem decodeBytes_encodeBytes (be : Bool) (i : Instr) : decodeBytes be (encodeBytes be i) = decodeWord (encode i) :=
  congrArg decodeWord (wordOfBytes_bytesOfWord be (encode i))

/-- Settles O1: the decoder finds the pattern of the instruction's own row, and its fields are the operands. -/
theorem decodeOfEncode : Obligations.DecodeOfEncode := by
  intro i h
  refine ⟨decodeWord_encode h, fun be => ?_⟩
  rw [decodeBytes_encodeBytes, decodeWord_encode h]

/-- A word is its bits under the mask of ACLR and ASET with its operand fields put back (R76, R77). -/
theorem and_atomicMask_or_encodeOperands (w : Word) :
    w &&& 0xFC1F8000 ||| encodeOperands (fieldBase w) (fieldBit w) (fieldOffset w) = w := by
  apply BitVec.eq_of_getLsbD_eq
  intro i hi
  rw [BitVec.getLsbD_or, BitVec.getLsbD_and, getLsbD_encodeOperands (fields_fit w) i hi, fieldBase, fieldBit,
    fieldOffset, BitVec.ofNat_toNat, BitVec.ofNat_toNat, BitVec.ofInt_toInt]
  interval_cases i <;> simp

/-- Settles O2: the three rows in turn; under the mask the word is the row's pattern, beside it the operands. -/
theorem encodeOfDecode : Obligations.EncodeOfDecode := by
  intro w i h
  obtain ⟨hpattern, rfl⟩ | ⟨hpattern, rfl⟩ | ⟨rfl, rfl⟩ := decodeWord_instr h
  · refine ⟨fields_fit w, ?_⟩
    rw [encode, ← hpattern, and_atomicMask_or_encodeOperands]
  · refine ⟨fields_fit w, ?_⟩
    rw [encode, ← hpattern, and_atomicMask_or_encodeOperands]
  · exact ⟨trivial, rfl⟩

/-- A word that shows none of the three patterns is refused by name (R78). -/
theorem decodeWord_eq_notInScope {w : Word} (hc : w &&& 0xFC1F8000 ≠ 0x04070000) (hs : w &&& 0xFC1F8000 ≠ 0x04078000)
    (hi : w ≠ 0x42000038) : decodeWord w = .notInScope w := by
  have hi' : w &&& 0xFFFFFFFF ≠ 0x42000038 := by rwa [and_iretMask]
  have h1 : ¬ rowAclr.selects w := fun h => hc (beq_iff_eq.mp h)
  have h2 : ¬ rowAset.selects w := fun h => hs (beq_iff_eq.mp h)
  have h3 : ¬ rowIret.selects w := fun h => hi' (beq_iff_eq.mp h)
  rw [decodeWord, if_neg h1, if_neg h2, if_neg h3]

/-- The patterns of ACLR and ASET have opcode 000001 and `w[20:16]` 00111 (R76). -/
theorem fields_of_atomicPattern {w : Word}
    (h : w &&& 0xFC1F8000 = 0x04070000 ∨ w &&& 0xFC1F8000 = 0x04078000) :
    w.extractLsb' 26 6 = 0b000001#6 ∧ w.extractLsb' 16 5 = 0b00111#5 := by
  rcases h with h | h
  · obtain ⟨hop, hrt, -⟩ := (and_atomicMask_eq_iff w 0x04070000).1 h
    exact ⟨hop, hrt⟩
  · obtain ⟨hop, hrt, -⟩ := (and_atomicMask_eq_iff w 0x04078000).1 h
    exact ⟨hop, hrt⟩

/-- A word without those two fields that is not IRET's is refused by name (R78, R79). -/
theorem decodeWord_eq_notInScope_of_fields {w : Word}
    (h : ¬ (w.extractLsb' 26 6 = 0b000001#6 ∧ w.extractLsb' 16 5 = 0b00111#5)) (hi : w ≠ 0x42000038) :
    decodeWord w = .notInScope w :=
  decodeWord_eq_notInScope (fun hc => h (fields_of_atomicPattern (.inl hc)))
    (fun hs => h (fields_of_atomicPattern (.inr hs))) hi

/-- Settles O5: each near miss misses a field of both rows' patterns: the first shape `w[20:16]` of ACLR and ASET, the
others the opcode of these and a field of IRET's word. -/
theorem nearMissesAreRefused : Obligations.NearMissesAreRefused := by
  rintro w (⟨hop, hrt⟩ | ⟨hop, -, -, hmid⟩ | ⟨hop, -, -, hlow⟩ | ⟨hop, hco⟩)
  · refine decodeWord_eq_notInScope_of_fields (fun h => hrt h.2) ?_
    rintro rfl
    exact absurd hop (by decide)
  all_goals
    refine decodeWord_eq_notInScope_of_fields (fun h => absurd (hop.symm.trans h.1) (by decide)) ?_
    rintro rfl
  · exact hmid (by decide)
  · exact hlow (by decide)
  · exact absurd hco (by decide)

/-- Settles O6: the decoder is evaluated on each word. -/
theorem specWordsDecode : Obligations.SpecWordsDecode := by
  unfold Obligations.SpecWordsDecode
  decide

end Sys2Proof.Machine
end

section
/-! The obligations about registers, fields, memory and byte order (10_state, 20_memory). -/

namespace Sys2Proof.Machine

/-- Settles O49: a write of register 0 leaves the register file, and any other is read back from its place alone. -/
theorem registerZeroAndSetsDoNotAlias : Obligations.RegisterZeroAndSetsDoNotAlias := by
  refine ⟨fun s set v => ⟨s.xs_zero set, ?_⟩, fun s set set' r r' v => s.xs_setXs set set' r r' v⟩
  have hgpr : writeGpr s.gpr set 0 v = s.gpr := if_pos rfl
  rw [State.setXs, hgpr]

/-- Settles O50: the bit of each write, and the read-back of the two priority fields. -/
theorem registerWritesAreExact : Obligations.RegisterWritesAreExact :=
  ⟨getLsbD_writeStatus, fun _ w lo v n h => getLsbD_putField w lo v n h, fun c w v =>
    ⟨statusIpl_putStatusIpl c w v, causeRipl_putCauseRipl c w v, fun n =>
      ⟨getLsbD_putStatusIpl c w v n, getLsbD_putCauseRipl c w v n⟩⟩⟩

/-- A priority of which six bits stand in a row (R27, R28). -/
theorem gatherBits_six {pos : Vector Nat 8} {lo : Nat} (w : Word) (h : ∀ i : Fin 8, i.val < 6 → pos[i] = lo + i.val) :
    gatherBits pos 6 w = (w.extractLsb' lo 6).setWidth 8 := by
  apply BitVec.eq_of_getLsbD_eq
  intro i hi
  rw [getLsbD_gatherBits pos 6 w ⟨i, hi⟩, BitVec.getLsbD_setWidth, BitVec.getLsbD_extractLsb']
  by_cases h6 : i < 6
  · rw [h ⟨i, hi⟩ h6]
    simp [hi, h6]
  · simp [h6]

/-- A priority whose eight bits stand in a row (R28). -/
theorem gatherBits_eight {pos : Vector Nat 8} {lo : Nat} (w : Word) (h : ∀ i : Fin 8, pos[i] = lo + i.val) :
    gatherBits pos 8 w = w.extractLsb' lo 8 := by
  apply BitVec.eq_of_getLsbD_eq
  intro i hi
  rw [getLsbD_gatherBits pos 8 w ⟨i, hi⟩, BitVec.getLsbD_extractLsb', h ⟨i, hi⟩]

/-- The eight bits of Status.IPL in the default layout (R27). -/
theorem gatherBits_standardIpl (w : Word) :
    gatherBits Positions.standard.ipl 8 w = w.extractLsb' 18 1 ++ w.extractLsb' 16 1 ++ w.extractLsb' 10 6 := by
  apply BitVec.eq_of_getLsbD_eq
  intro i hi
  rw [getLsbD_gatherBits _ 8 w ⟨i, hi⟩, BitVec.getLsbD_append, BitVec.getLsbD_append]
  interval_cases i <;> simp [Positions.standard]

/-- Settles O51: each accessor reads the position the layout gives; the two priorities are gathered bit by bit. -/
theorem defaultLayoutPositions : Obligations.DefaultLayoutPositions := by
  intro c w h
  have hpos : c.layout.toPositions = Positions.standard := by rw [h]; rfl
  have hsix : c.iplw = .six → iplBitCount c = 6 := fun h => by rw [iplBitCount, h]
  have height : c.iplw = .eight → iplBitCount c = 8 := fun h => by rw [iplBitCount, h]
  simp only [statusIe, statusExl, statusErl, statusKsu, statusBev, statusCu0, statusIpl, causeExcCode, causeIv, causeIc,
    causeCe, causeBd, causeRipl, srsCss, srsPss, srsEss, srsEicss, srsHss, intApe, intIce, intStkDec, intClrExl, intVs,
    cfg3Veic, cfg3IsaOnExc, cfg3Mcu, cfg3Isa, cfg3Iplw, hpos]
  refine ⟨⟨rfl, rfl, rfl, rfl, rfl, rfl, fun h6 => ?_, fun h8 => ?_⟩,
    ⟨rfl, rfl, rfl, rfl, rfl, fun h6 => ?_, fun h8 => ?_⟩, ⟨rfl, rfl, rfl, rfl, rfl⟩,
    ⟨rfl, rfl, rfl, rfl, rfl⟩, ⟨rfl, rfl, rfl, rfl, rfl⟩⟩
  · rw [hsix h6]
    exact gatherBits_six w (by decide)
  · rw [height h8]
    exact gatherBits_standardIpl w
  · rw [hsix h6]
    exact gatherBits_six w (by decide)
  · rw [height h8]
    exact gatherBits_eight w (by decide)

/-- Settles O45: the default table is evaluated at each of its 32 codes. -/
theorem defaultFrameSize : Obligations.DefaultFrameSize := by
  intro s h
  have htable : ∀ code : BitVec 5,
      Config.stkDecDefault[code.toNat]'code.isLt = if code.toNat ≤ 3 then 12 else 4 * code.setWidth 32 := by decide
  simp only [State.frameSize, h]
  exact htable _

/-- Settles O52: MemWrite's byte, at its physical address and through an address the write leaves where it was. -/
theorem byteWriteThenRead : Obligations.ByteWriteThenRead :=
  fun s va a v => ⟨s.read_memWriteByte va v, s.byteAt_memWriteByte va a v⟩

/-- Settles O53: the two laws of a memory write. -/
theorem memoryStaysCanonical : Obligations.MemoryStaysCanonical :=
  fun m a v w => ⟨fun h => Memory.wf_write h a v, Memory.write_write m a v w⟩

/-- Byte `k` of a little-endian word stands at bits 8k to 8k+7 (R55). -/
theorem extractLsb'_wordOfBytes_little (b : Fin 4 → Byte) (k : Fin 4) :
    (wordOfBytes false (b 0) (b 1) (b 2) (b 3)).extractLsb' (8 * k) 8 = b k := by
  apply BitVec.eq_of_getLsbD_eq
  intro i hi
  rw [BitVec.getLsbD_extractLsb', getLsbD_wordOfBytes]
  fin_cases k
  all_goals grind

/-- Byte `k` of a big-endian word stands at bits 24-8k to 31-8k: it is byte 3-k of the word read from the other end
(R55). -/
theorem extractLsb'_wordOfBytes_big (b : Fin 4 → Byte) (k : Fin 4) :
    (wordOfBytes true (b 0) (b 1) (b 2) (b 3)).extractLsb' (24 - 8 * k) 8 = b k := by
  have h := extractLsb'_wordOfBytes_little (fun j => b j.rev) k.rev
  have hk : 8 * (k.rev : Nat) = 24 - 8 * k := by rw [Fin.val_rev]; omega
  simp only [hk, Fin.rev_rev] at h
  exact h

/-- Settles O54: each byte's place in either order, and the inverse. -/
theorem byteOrderOfWords : Obligations.ByteOrderOfWords :=
  ⟨fun b k => ⟨extractLsb'_wordOfBytes_little b k, extractLsb'_wordOfBytes_big b k⟩, wordOfBytes_bytesOfWord⟩

end Sys2Proof.Machine
end

section
/-! The ways a step goes on: the reset-like event, an exception, or an instruction that completes. Each preservation
and frame lemma has one case for each. -/

namespace Sys2Proof.Machine

/-- The ways an instruction goes on other than by taking an exception: ACLR and ASET write their byte (R90, R91); IRET
acts as ERET (R103), takes its return path (R107 to R109) or its chaining path (R110 to R112). -/
inductive Completes (s : State) : Instr → State → Prop
  | atomic {i : Instr} {base bit : Nat} {offset : Int} (v : Byte)
      (hi : i ∈ [Instr.aclr base bit offset, Instr.aset base bit offset]) :
      Completes s i (s.memWriteByte (s.effAddr base offset) v).advance
  | eret (hu : s.cp0Usable = true) (ha : s.actsAsEret = true) : Completes s .iret (eretOperation s)
  | ret {s' : State} (a b c : Word) (hu : s.cp0Usable = true) (ha : s.actsAsEret = false)
      (hs' : s' = s ∨ s' = s.eicDrawn) (hpss : srsPss s.cfg b ≤ srsHss s.cfg s.srsCtl)
      (hess : srsEss s.cfg b ≤ srsHss s.cfg s.srsCtl) : Completes s .iret (iretReturnPath a b c s')
  | chain (a v : Word) (hu : s.cp0Usable = true) (ha : s.actsAsEret = false)
      (hice : intIce s.cfg s.intCtl = true) (hss : s.eicOut.ss ≤ srsHss s.cfg s.srsCtl) :
      Completes s .iret ((iretChainAccept a s.eicOut s.eicDrawn).jump v)

/-- An instruction that goes on took an exception or completed; the exception is taken in the state it started in, or
in that with one sample used up (D17). -/
theorem exec_next_cases {i : Instr} {s t : State} (h : exec i s = .next t) :
    (∃ e s', (s' = s ∨ s' = s.eicDrawn) ∧ takeException e s' = .next t) ∨ Completes s i t := by
  have hatomic {base bit : Nat} {offset : Int} (hi : i ∈ [Instr.aclr base bit offset, Instr.aset base bit offset]) :
      (∃ e s', (s' = s ∨ s' = s.eicDrawn) ∧ takeException e s' = .next t) ∨ Completes s i t := by
    obtain ⟨change, hexec⟩ := exec_eq_atomicBit hi
    rw [hexec] at h
    obtain ⟨-, -, rfl | ⟨e, -, htrap⟩⟩ := atomicBit_next h
    · exact .inr (.atomic _ hi)
    · exact .inl ⟨e, s, .inl rfl, htrap⟩
  cases i with
  | aclr base bit offset => exact hatomic (base := base) (bit := bit) (offset := offset) (by simp)
  | aset base bit offset => exact hatomic (base := base) (bit := bit) (offset := offset) (by simp)
  | iret =>
    obtain ⟨-, -, -, htrap | ⟨hu, ha, rfl⟩ | ⟨hu, ha, a, b, c, s', hs', hpss, hess, rfl⟩ |
      ⟨hu, ha, hice, hss, a, v, -, rfl⟩⟩ := execIret_next h
    · exact .inl htrap
    · exact .inr (.eret hu ha)
    · exact .inr (.ret a b c hu ha hs' hpss hess)
    · exact .inr (.chain a v hu ha hice hss)

/-- The same, in the terms of the obligations. -/
theorem exec_next {i : Instr} {s t : State} (h : exec i s = .next t) : TookException s t ∨ Completes s i t := by
  obtain ⟨e, s', rfl | rfl, htrap⟩ | hdone := exec_next_cases h
  · exact .inl ⟨e, _, rfl, rfl, rfl, htrap⟩
  · exact .inl ⟨e, _, State.view_eicDrawn s, rfl, rfl, htrap⟩
  · exact .inr hdone

/-- A step that goes on took a reset-like event, took an exception, or completed the instruction at the pc. -/
theorem step_next_cases {s t : State} (h : step s = .next t) :
    TookReset s t ∨ TookException s t ∨
      ∃ i, decodeWord (s.wordAt s.pc) = .instr i ∧ Completes s.boundaryPassed i t := by
  obtain ⟨-, hreset | ⟨-, -, ⟨e, htrap⟩ | ⟨i, hi, hexec⟩⟩⟩ := step_next h
  · exact .inl hreset
  · exact .inr (.inl ⟨e, _, State.view_boundaryPassed s, rfl, rfl, htrap⟩)
  · rcases exec_next hexec with htook | hdone
    · exact .inr (.inl htook)
    · exact .inr (.inr ⟨i, hi, hdone⟩)

/-! What is left as it was. -/

/-- An instruction that completes leaves the configuration, and the boundary's inputs still to come. -/
theorem completes_sameConfiguration {i : Instr} {s t : State} (h : Completes s i t) :
    SameConfiguration s t ∧ t.irqIn = s.irqIn ∧ t.resetIn = s.resetIn := by
  cases h with
  | atomic v hi => exact ⟨⟨⟨rfl, rfl, rfl, rfl, rfl, rfl, rfl⟩, rfl, rfl⟩, rfl, rfl⟩
  | eret hu ha =>
    refine ⟨⟨⟨rfl, rfl, rfl, rfl, rfl, ?_, rfl⟩, rfl, rfl⟩, rfl, rfl⟩
    rw [eretOperation_srsCtl]
    split
    · exact srsHss_putCss ..
    · rfl
  | ret a b c hu ha hs' hpss hess =>
    obtain rfl | rfl := hs'
    all_goals exact ⟨⟨⟨rfl, rfl, rfl, rfl, rfl, srsHss_returnSrsCtl .., causeIv_putIc ..⟩, rfl, rfl⟩, rfl, rfl⟩
  | chain a v hu ha hice hss =>
    refine ⟨⟨⟨rfl, rfl, rfl, rfl, rfl, ?_, ?_⟩, rfl, rfl⟩, rfl, rfl⟩
    · simp
    · simp

/-- What an exception leaves as it was, whatever its entry (log 48). -/
theorem tookException_sameFixed {s t : State} (h : TookException s t) :
    SameFixed s t ∧ t.eicAcks = s.eicAcks ∧ t.stored = s.stored := by
  obtain ⟨e, s', hview, hstored, hacks, htrap⟩ := h
  obtain ⟨hfixed, ⟨-, hacks', -⟩, hstored', -⟩ := sameFixed_takeException htrap
  have hfixed : SameFixed s'.view t := hfixed
  rw [hview] at hfixed
  exact ⟨hfixed, hacks'.trans hacks, hstored'.trans hstored⟩

/-- By the default entry the state an exception left is `trapEntry` of a state that reads as `s` in every register
(R140). -/
theorem tookException_trapEntry {s t : State} (hstd : s.cfg.trapEntry = .standard) (h : TookException s t) :
    ∃ e s', s'.view = s.view ∧ s'.stored = s.stored ∧ t = trapEntry e s' := by
  obtain ⟨e, s', hview, hstored, -, htrap⟩ := h
  have hcfg : s'.cfg = s.cfg := (congrArg State.cfg hview :)
  rw [← hcfg] at hstd
  exact ⟨e, s', hview, hstored, (takeException_next_standard hstd htrap).2⟩

/-- What the default entry leaves as it was, and what it writes to Status and SRSCtl (R140). -/
theorem tookException_standard {s t : State} (hstd : s.cfg.trapEntry = .standard) (h : TookException s t) :
    SameConfiguration s t ∧ SameRegs s t ∧ SameMemory s t ∧ t.llBit = s.llBit ∧
      t.status = putBit s.status s.cfg.layout.exl true ∧ t.srsCtl = s.trapSrsCtl := by
  obtain ⟨e, s', hview, hstored, rfl⟩ := tookException_trapEntry hstd h
  have hconfig : SameConfiguration s'.view (trapEntry e s') := sameConfiguration_trapEntry e s'
  have hregs : SameRegs s'.view (trapEntry e s') := fun _ _ => rfl
  have hmem : (trapEntry e s').mem = s'.view.mem := rfl
  have hll : (trapEntry e s').llBit = s'.view.llBit := rfl
  have hstatus : (trapEntry e s').status = putBit s'.view.status s'.view.cfg.layout.exl true := rfl
  have hsrs : (trapEntry e s').srsCtl = s'.view.trapSrsCtl := rfl
  rw [hview] at hconfig hregs hmem hll hstatus hsrs
  exact ⟨hconfig, hregs, ⟨hmem, hstored⟩, hll, hstatus, hsrs⟩

/-! The invariant (R22, R29 to R32, R51). -/

/-- A state that differs in SRSCtl alone, of what the invariant reads, keeps it if SRSCtl does. -/
theorem stateInv_of_srsCtl {s t : State} (h : StateInv s) (hcfg : t.cfg = s.cfg) (hconfig3 : t.config3 = s.config3)
    (hebase : t.ebase = s.ebase) (hmem : t.mem = s.mem) (hstored : t.stored = s.stored)
    (hsets : setsInRange s.cfg t.srsCtl) (hothers : srsOthersZero s.cfg t.srsCtl) : StateInv t where
  sets := hcfg ▸ hsets
  others := hcfg ▸ hothers
  config := by rw [hcfg, hconfig3]; exact h.config
  base := by rw [hebase]; exact h.base
  memory := by rw [hmem]; exact h.memory
  marks := by rw [hstored]; exact h.marks
  physical := by rw [hmem, hcfg]; exact h.physical
  markedPhysical := by rw [hstored, hcfg]; exact h.markedPhysical

/-- The invariant reads nothing that `view` leaves out, but for the marks. -/
theorem stateInv_of_view {s t : State} (h : StateInv s) (hview : t.view = s.view) (hstored : t.stored = s.stored) :
    StateInv t := by
  have hsrs : t.srsCtl = s.srsCtl := (congrArg State.srsCtl hview :)
  exact stateInv_of_srsCtl h (congrArg State.cfg hview :) (congrArg State.config3 hview :)
    (congrArg State.ebase hview :) (congrArg State.mem hview :) hstored (hsrs ▸ h.sets) (hsrs ▸ h.others)

theorem setsInRange_putCss {c : Config} {w : Word} {v : BitVec 4} (h : setsInRange c w) (hv : v ≤ srsHss c w) :
    setsInRange c (putField w c.layout.css v) := by
  obtain ⟨-, hpss, hess, heicss⟩ := h
  simp only [setsInRange, srsCss_putCss, srsPss_putCss, srsEss_putCss, srsEicss_putCss, srsHss_putCss]
  exact ⟨hv, hpss, hess, heicss⟩

theorem setsInRange_putPss {c : Config} {w : Word} {v : BitVec 4} (h : setsInRange c w) (hv : v ≤ srsHss c w) :
    setsInRange c (putField w c.layout.pss v) := by
  obtain ⟨hcss, -, hess, heicss⟩ := h
  simp only [setsInRange, srsCss_putPss, srsPss_putPss, srsEss_putPss, srsEicss_putPss, srsHss_putPss]
  exact ⟨hcss, hv, hess, heicss⟩

theorem setsInRange_putEss {c : Config} {w : Word} {v : BitVec 4} (h : setsInRange c w) (hv : v ≤ srsHss c w) :
    setsInRange c (putField w c.layout.ess v) := by
  obtain ⟨hcss, hpss, -, heicss⟩ := h
  simp only [setsInRange, srsCss_putEss, srsPss_putEss, srsEss_putEss, srsEicss_putEss, srsHss_putEss]
  exact ⟨hcss, hpss, hv, heicss⟩

theorem setsInRange_putEicss {c : Config} {w : Word} {v : BitVec 4} (h : setsInRange c w) (hv : v ≤ srsHss c w) :
    setsInRange c (putField w c.layout.eicss v) := by
  obtain ⟨hcss, hpss, hess, -⟩ := h
  simp only [setsInRange, srsCss_putEicss, srsPss_putEicss, srsEss_putEicss, srsEicss_putEicss, srsHss_putEicss]
  exact ⟨hcss, hpss, hess, hv⟩

/-- The set numbers after the default entry: PSS takes CSS and CSS takes ESS, or all stay (R140). -/
theorem setsInRange_trapSrsCtl {s : State} (h : setsInRange s.cfg s.srsCtl) : setsInRange s.cfg s.trapSrsCtl := by
  have ⟨hcss, _, hess, _⟩ := h
  unfold State.trapSrsCtl
  split
  · exact setsInRange_putCss (setsInRange_putPss h hcss) (by rwa [srsHss_putPss])
  · exact h

theorem stateInv_takeException {e : Exc} {s t : State} (h : StateInv s) (ht : takeException e s = .next t) :
    StateInv t := by
  rcases takeException_next ht with ⟨-, -, rfl, -⟩ | ⟨n, -, rfl, hsets⟩
  · exact stateInv_of_srsCtl h rfl rfl rfl rfl rfl (setsInRange_trapSrsCtl h.sets) (srsOthersZero_trapSrsCtl h.others)
  · exact ⟨hsets, srsOthersZero_otherEntry h.others n e, h.config, h.base, Memory.wf_ofCells .., h.marks,
      fun _ => Memory.lt_of_mem_ofCells, h.markedPhysical⟩

theorem stateInv_tookException {s t : State} (h : StateInv s) (ht : TookException s t) : StateInv t := by
  obtain ⟨e, s', hview, hstored, -, htrap⟩ := ht
  exact stateInv_takeException (stateInv_of_view h hview hstored) htrap

theorem stateInv_resetEntry {s : State} (h : StateInv s) (k : ResetEvent) : StateInv (resetEntry k s) := by
  obtain ⟨hpss, hhss, hcss, hess, heicss, -⟩ := resetEntry_sets k s
  have hsets : setsInRange s.cfg (resetEntry k s).srsCtl := by
    obtain ⟨-, hold, -, -⟩ := h.sets
    rw [setsInRange, hpss, hhss]
    exact ⟨hcss, hold, hess, heicss⟩
  exact ⟨hsets, srsOthersZero_resetEntry h.others k, h.config, resetEntry_ebaseTop k s, Memory.wf_ofCells .., h.marks,
    fun _ => Memory.lt_of_mem_ofCells, h.markedPhysical⟩

/-- A byte written at the physical address it maps to keeps the forms of memory and of the marks (R51, R54, R67). -/
theorem stateInv_memWriteByte {s : State} (h : StateInv s) (va : Word) (v : Byte) :
    StateInv (s.memWriteByte va v).advance where
  sets := h.sets
  others := h.others
  config := h.config
  base := h.base
  memory := Memory.wf_write h.memory _ v
  marks := pairwise_markStored _ _ h.marks
  physical := by
    intro c hc
    rcases Memory.mem_write hc with rfl | hc
    · exact s.phys_lt va
    · exact h.physical c hc
  markedPhysical := by
    intro a ha
    rcases (mem_markStored _ _ _).1 ha with rfl | ha
    · exact s.phys_lt va
    · exact h.markedPhysical a ha

theorem stateInv_eretOperation {s : State} (h : StateInv s) : StateInv (eretOperation s) := by
  obtain ⟨-, hpss, -, -⟩ := h.sets
  refine stateInv_of_srsCtl h rfl rfl rfl rfl rfl ?_ ?_
  · rw [eretOperation_srsCtl]
    split
    · exact setsInRange_putCss h.sets hpss
    · exact h.sets
  · rw [eretOperation_srsCtl]
    split
    · exact srsOthersZero_putField h.others (by simp) _
    · exact h.others

theorem stateInv_iretReturnPath {s : State} (h : StateInv s) (a c : Word) {b : Word}
    (hpss : srsPss s.cfg b ≤ srsHss s.cfg s.srsCtl) (hess : srsEss s.cfg b ≤ srsHss s.cfg s.srsCtl) :
    StateInv (iretReturnPath a b c s) := by
  have hsets : setsInRange s.cfg (putField (putField s.srsCtl s.cfg.layout.pss (srsPss s.cfg b)) s.cfg.layout.ess
      (srsEss s.cfg b)) := setsInRange_putEss (setsInRange_putPss h.sets hpss) (by rwa [srsHss_putPss])
  have hothers : srsOthersZero s.cfg (putField (putField s.srsCtl s.cfg.layout.pss (srsPss s.cfg b)) s.cfg.layout.ess
      (srsEss s.cfg b)) := srsOthersZero_putField (srsOthersZero_putField h.others (by simp) _) (by simp) _
  refine stateInv_of_srsCtl h rfl rfl rfl rfl rfl ?_ ?_
  · rw [iretReturnPath_srsCtl, State.returnSrsCtl]
    split
    · exact setsInRange_putCss hsets (by rwa [srsHss_putEss, srsHss_putPss])
    · exact hsets
  · rw [iretReturnPath_srsCtl, State.returnSrsCtl]
    split
    · exact srsOthersZero_putField hothers (by simp) _
    · exact hothers

theorem stateInv_iretChain {s : State} (h : StateInv s) (a v : Word) {eic : EicSample}
    (hss : eic.ss ≤ srsHss s.cfg s.srsCtl) : StateInv ((iretChainAccept a eic s).jump v) := by
  refine stateInv_of_srsCtl h rfl rfl rfl rfl rfl ?_ ?_
  · exact setsInRange_putCss (setsInRange_putEicss h.sets hss) (by rwa [srsHss_putEicss])
  · exact srsOthersZero_putField (srsOthersZero_putField h.others (by simp) _) (by simp) _

theorem stateInv_completes {i : Instr} {s t : State} (h : StateInv s) (ht : Completes s i t) : StateInv t := by
  have hdrawn : StateInv s.eicDrawn := stateInv_of_view h (State.view_eicDrawn s) rfl
  cases ht with
  | atomic v hi => exact stateInv_memWriteByte h _ v
  | eret hu ha => exact stateInv_eretOperation h
  | ret a b c hu ha hs' hpss hess =>
    obtain rfl | rfl := hs'
    · exact stateInv_iretReturnPath h a c hpss hess
    · exact stateInv_iretReturnPath hdrawn a c hpss hess
  | chain a v hu ha hice hss => exact stateInv_iretChain hdrawn a v hss

/-- Settles O55: the invariant is kept by each way a step goes on. -/
theorem stepKeepsInvariant : Obligations.StepKeepsInvariant := by
  intro s t h hstep
  have hpassed : StateInv s.boundaryPassed := stateInv_of_view h (State.view_boundaryPassed s) rfl
  obtain ⟨k, -, rfl⟩ | htook | ⟨i, -, hdone⟩ := step_next_cases hstep
  · exact stateInv_resetEntry hpassed k
  · exact stateInv_tookException h htook
  · exact stateInv_completes hpassed hdone

/-! What no step writes, and who writes the rest. -/

/-- A step that took no reset-like event leaves what nothing in scope writes. -/
theorem step_sameFixed {s t : State} (h : step s = .next t) (hreset : ¬ TookReset s t) :
    SameFixed s t ∧ (¬ TookException s t ∨ s.cfg.trapEntry = .standard → SameConfiguration s t) := by
  obtain hr | htook | ⟨i, -, hdone⟩ := step_next_cases h
  · exact absurd hr hreset
  · obtain ⟨hfixed, -⟩ := tookException_sameFixed htook
    refine ⟨hfixed, fun hor => ?_⟩
    obtain ⟨hconfig, -⟩ := tookException_standard (hor.resolve_left (not_not_intro htook)) htook
    exact hconfig
  · obtain ⟨⟨hfixed, hsaved⟩, -⟩ := completes_sameConfiguration hdone
    exact ⟨hfixed, fun _ => ⟨hfixed, hsaved⟩⟩

/-- Settles O56: a reset-like event keeps the implementation constants, and every other way to go on keeps more. -/
theorem stepKeepsConfiguration : Obligations.StepKeepsConfiguration := by
  intro s t h
  by_cases hreset : TookReset s t
  · have hall := hreset
    obtain ⟨k, -, rfl⟩ := hreset
    obtain ⟨-, hhss, -⟩ := resetEntry_sets k s.boundaryPassed
    exact ⟨rfl, rfl, rfl, hhss, fun hno => absurd hall hno⟩
  · have hstep := step_sameFixed h hreset
    have ⟨⟨_, _, hconfig3, hcfg, hdelay, hhss, _⟩, _⟩ := hstep
    exact ⟨hconfig3, hcfg, hdelay, hhss, fun _ => hstep⟩

/-- The default entry switches the set only where EXL was 0 (R140). -/
theorem statusExl_of_srsCss_trapSrsCtl {s : State} (h : srsCss s.cfg s.trapSrsCtl ≠ srsCss s.cfg s.srsCtl) :
    statusExl s.cfg s.status = false := by
  by_contra hexl
  have hkeep : s.savesSet = false := by simp [State.savesSet, hexl]
  exact h (by rw [State.trapSrsCtl, hkeep]; rfl)

/-- Settles O57: of the instructions only IRET writes SRSCtl, and an exception by the default entry only with EXL 0. -/
theorem onlyIretOrExceptionSwitchesSets : Obligations.OnlyIretOrExceptionSwitchesSets := by
  intro s t h hcss
  obtain hreset | htook | ⟨i, hi, hdone⟩ := step_next_cases h
  · exact .inr (.inl hreset)
  · refine .inr (.inr ⟨htook, fun hstd => ?_⟩)
    obtain ⟨-, -, -, -, hstatus, hsrs⟩ := tookException_standard hstd htook
    rw [hsrs] at hcss
    exact ⟨statusExl_of_srsCss_trapSrsCtl hcss, by rw [hstatus, statusExl_putExl]⟩
  · cases hdone with
    | atomic v hmem => exact absurd rfl hcss
    | eret | ret | chain => exact .inl hi

/-- The event of an instruction that completes: a chaining IRET's, with what it has just written to Cause and SRSCtl
(R41, R110). -/
theorem completes_eicAcks {i : Instr} {s t : State} (h : Completes s i t) :
    t.eicAcks = s.eicAcks ∨ (i = .iret ∧ intIce s.cfg s.intCtl = true ∧ causeIc s.cfg t.cause = true ∧
      t.eicAcks = s.eicAcks ++ [⟨causeRipl s.cfg t.cause, srsEicss s.cfg t.srsCtl⟩]) := by
  cases h with
  | atomic v hi => exact .inl rfl
  | eret hu ha => exact .inl rfl
  | ret a b c hu ha hs' hpss hess =>
    obtain rfl | rfl := hs'
    · exact .inl rfl
    · exact .inl rfl
  | chain a v hu ha hice hss =>
    refine .inr ⟨rfl, hice, causeIc_putIc .., ?_⟩
    simp [causeRipl_putCauseRipl]

/-- Settles O58: no reset-like event and no exception sends an event, and of the instructions only a chaining IRET. -/
theorem onlyChainingAcknowledges : Obligations.OnlyChainingAcknowledges := by
  intro s t h
  obtain ⟨k, -, rfl⟩ | htook | ⟨i, hi, hdone⟩ := step_next_cases h
  · exact .inl rfl
  · obtain ⟨-, hacks, -⟩ := tookException_sameFixed htook
    exact .inl hacks
  · obtain hkeep | ⟨rfl, hsent⟩ := completes_eicAcks hdone
    · exact .inl hkeep
    · exact .inr ⟨hi, hsent⟩

/-- By default coprocessor 0 is usable in kernel mode or with CU0 set (R136). -/
theorem State.cp0Usable_standard {s : State} (h : s.cfg.cp0Usable = .standard) :
    s.cp0Usable = (statusMode s.cfg s.status == .kernel || statusCu0 s.cfg s.status) := by
  rw [State.cp0Usable, h]

/-- Settles O59: of the instructions only IRET writes Status, and only where coprocessor 0 is usable. -/
theorem userModeCannotChangeStatus : Obligations.UserModeCannotChangeStatus := by
  refine fun s => ⟨fun hstd hmode hcu0 => ?_, fun t hu h => ?_⟩
  · rw [State.cp0Usable_standard hstd, hcu0, Bool.or_false]
    exact beq_false_of_ne hmode
  · obtain hreset | htook | ⟨i, -, hdone⟩ := step_next_cases h
    · exact .inr (.inl hreset)
    · refine .inr (.inr ⟨htook, fun hstd => ?_⟩)
      obtain ⟨-, -, -, -, hstatus, -⟩ := tookException_standard hstd htook
      exact hstatus
    · have hno : s.boundaryPassed.cp0Usable ≠ true := fun hyes => Bool.false_ne_true (hu.symm.trans hyes)
      cases hdone with
      | atomic v hmem => exact .inl rfl
      | eret hu' | ret a b c hu' | chain a v hu' => exact absurd hu' hno

/-- Settles O60: IRET writes no memory, and an exception only by an entry other than the default. -/
theorem onlyAtomicsWriteMemory : Obligations.OnlyAtomicsWriteMemory := by
  intro s t a h hread
  obtain hreset | htook | ⟨i, hi, hdone⟩ := step_next_cases h
  · exact .inr (.inr hreset)
  · refine .inr (.inl ⟨htook, fun hstd => ?_⟩)
    obtain ⟨-, -, ⟨hmem, -⟩, -⟩ := tookException_standard hstd htook
    exact hread (by rw [hmem])
  · cases hdone with
    | @atomic _ base bit offset v hmem =>
      refine .inl ⟨base, bit, offset, ?_, ?_⟩
      · by_contra hne
        exact hread ((State.read_memWriteByte ..).trans (if_neg hne))
      · obtain rfl | rfl : i = .aclr base bit offset ∨ i = .aset base bit offset := by simpa using hmem
        · exact .inl hi
        · exact .inr hi
    | eret hu ha => exact absurd rfl hread
    | ret a b c hu ha hs' hpss hess =>
      obtain rfl | rfl := hs'
      · exact absurd rfl hread
      · exact absurd rfl hread
    | chain a v hu ha hice hss => exact absurd rfl hread

end Sys2Proof.Machine
end

section
/-! The obligations about taking an exception (60_exceptions). -/

namespace Sys2Proof.Machine

/-- Cause.BD is apart from the two fields the default entry writes (R140). -/
theorem Layout.bd_apart (l : Layout) : ¬ inField l.excCode 5 l.bd ∧ ¬ inField l.ce 2 l.bd := by
  have hcode := fieldsFit_apart l.causeFit 4 0 (by simp) (by simp) (by simp)
  have hce := fieldsFit_apart l.causeFit 4 3 (by simp) (by simp) (by simp)
  simp only [List.getElem_cons_succ, List.getElem_cons_zero] at hcode hce
  simp only [inField]
  omega

/-- Cause.BD after the default entry: cleared with EXL 0, kept with EXL 1 (R140). -/
theorem causeBd_trapCause (c : Config) (e : Exc) (status cause : Word) :
    causeBd c (trapCause c e status cause) = (statusExl c status && causeBd c cause) := by
  obtain ⟨hcode, hce⟩ := Layout.bd_apart c.layout
  rw [causeBd, getLsbD_trapCause c e status cause _ hcode hce]
  cases statusExl c status
  · simp
  · simp [causeBd]

/-- Cause.CE after the default entry of Coprocessor Unusable is the coprocessor's number (R140). -/
@[simp] theorem causeCe_trapCause_coprocessorUnusable (c : Config) (cop : BitVec 2) (status cause : Word) :
    causeCe c (trapCause c (.coprocessorUnusable cop) status cause) = cop :=
  extract_putField_same _ _ _ c.layout.ce_le

/-- Every other default entry keeps Cause.CE (R140). -/
theorem causeCe_trapCause (c : Config) {e : Exc} (he : ∀ cop, e ≠ .coprocessorUnusable cop) (status cause : Word) :
    causeCe c (trapCause c e status cause) = causeCe c cause := by
  have hcode : c.layout.ce + 2 ≤ c.layout.excCode ∨ c.layout.excCode + 5 ≤ c.layout.ce :=
    fieldsFit_apart c.layout.causeFit 3 0 (by simp) (by simp) (by simp)
  have hbd : c.layout.ce + 2 ≤ c.layout.bd ∨ c.layout.bd < c.layout.ce :=
    fieldsFit_apart c.layout.causeFit 3 4 (by simp) (by simp) (by simp)
  have hkeep : causeCe c (putField (if statusExl c status then cause else putBit cause c.layout.bd false)
      c.layout.excCode e.code) = causeCe c cause := by
    rw [causeCe, extract_putField_other _ _ _ _ _ c.layout.excCode_le hcode]
    split
    · rfl
    · exact extract_putBit_other _ _ _ _ _ c.layout.bd_lt hbd
  cases e with
  | coprocessorUnusable cop => exact absurd rfl (he cop)
  | tlbRefill | tlbInvalid | tlbModified | addressError | watch | busError | cacheError => exact hkeep

/-- The default entry with EXL 0: EPC takes the pc, BD is cleared and, under the guard, the set numbers are saved (R140,
R141). -/
theorem trapEntry_of_exl_clear (e : Exc) {s : State} (h : statusExl s.cfg s.status = false) :
    (trapEntry e s).epc =
        (if s.cfg.hasMicroMIPS then (s.pc &&& 0xFFFFFFFE) ||| (if s.isaMode then 1 else 0) else s.pc) ∧
      causeBd s.cfg (trapEntry e s).cause = false ∧
      (trapEntry e s).srsCtl = (if s.setsSwitch s.status then
        putField (putField s.srsCtl s.cfg.layout.pss (srsCss s.cfg s.srsCtl)) s.cfg.layout.css (srsEss s.cfg s.srsCtl)
        else s.srsCtl) := by
  refine ⟨?_, ?_, ?_⟩
  · rw [trapEntry_epc, State.trapEpc, h, ← append_bit_eq_or]
    rfl
  · rw [trapEntry_cause, causeBd_trapCause, h, Bool.false_and]
  · rw [trapEntry_srsCtl, State.trapSrsCtl, State.savesSet, h, Bool.not_false, Bool.true_and]

/-- The default entry with EXL 1: EPC, SRSCtl and BD stay, and the offset is 0x180 (R140). -/
theorem trapEntry_of_exl_set (e : Exc) {s : State} (h : statusExl s.cfg s.status = true) :
    (trapEntry e s).epc = s.epc ∧ (trapEntry e s).srsCtl = s.srsCtl ∧
      causeBd s.cfg (trapEntry e s).cause = causeBd s.cfg s.cause ∧
      (trapEntry e s).pc = s.vectorBase s.status + 0x180 := by
  refine ⟨?_, ?_, ?_, ?_⟩
  · rw [trapEntry_epc, State.trapEpc, if_pos h]
  · rw [trapEntry_srsCtl, State.trapSrsCtl, State.savesSet, h]
    rfl
  · rw [trapEntry_cause, causeBd_trapCause, h, Bool.true_and]
  · cases e <;> simp [trapOffset, h]

/-- Settles O46: the two cases of EXL, and the registers the entry has no line for. -/
theorem exceptionEntry : Obligations.ExceptionEntry := by
  refine fun e s _ => ⟨rfl, causeExcCode_trapCause .., rfl, fun h => ?_, trapEntry_of_exl_set e, fun _ _ => rfl,
    ⟨rfl, rfl⟩, rfl, ⟨rfl, rfl, rfl⟩⟩
  obtain ⟨hepc, hbd, hsrs⟩ := trapEntry_of_exl_clear e h
  rw [hepc, hsrs]
  refine ⟨fun hm => ?_, fun hm => ?_, hbd, fun hg => ?_, fun hg => ?_, ?_⟩
  · simp [hm]
  · simp [hm]
  · simp [hg]
  · simp [hg]
  · cases e <;> simp [trapOffset, h]

/-- Settles O47: Cause bit by bit and field by field; the rest has no line in the entry. -/
theorem exceptionEntryLeavesTheRest : Obligations.ExceptionEntryLeavesTheRest := by
  refine fun e s _ => ⟨fun htlb => ?_, fun n hcode hce hbd => ?_, fun he => causeCe_trapCause s.cfg he _ _, ?_, rfl,
    sameConfiguration_trapEntry e s, rfl, rfl⟩
  · rw [trapEntry_context, trapEntry_entryHi, htlb]
    exact ⟨rfl, rfl⟩
  · rw [trapEntry_cause, getLsbD_trapCause _ _ _ _ _ hcode hce, if_neg fun h => hbd h.2]
  · rintro cop rfl
    exact causeCe_trapCause_coprocessorUnusable ..

/-- By the default entry a Cache Error is a terminal fault (R140). -/
theorem takeException_cacheError {s : State} (hstd : s.cfg.trapEntry = .standard) (hd : s.inDelaySlot = false)
    (va : Word) : takeException (.cacheError va) s = .fault (.cacheError va) := by
  simp [takeException, takeStandard, hstd, hd]

/-- Settles O48: the default entry and its two stops, then any other entry. -/
theorem exceptionIsTaken : Obligations.ExceptionIsTaken := by
  refine fun e s => ⟨fun hstd hd => ⟨takeException_eq hstd hd, ?_⟩, fun hstd hd => ?_, fun n hn => ?_⟩
  · rintro va rfl
    exact takeException_cacheError hstd hd va
  · simp [takeException, takeStandard, hstd, hd]
  · refine ⟨fun h => ?_, fun h => ?_, sameFixed_otherEntry n e s, rfl, Memory.wf_ofCells .., ?_, fun he => ?_,
      fun va hmem => otherEntry_loadAddr n s hmem⟩
    · simp only [takeException, hn, if_pos h]
    · simp only [takeException, hn, if_neg h]
    · rintro va rfl
      exact otherEntry_cacheError n va s
    · obtain ⟨hcode, hsaves⟩ := otherEntry_records n s he
      exact ⟨hcode, fun hexl hguard => hsaves (by rw [State.savesSet, hexl, hguard]; rfl)⟩

/-- Only a platform's error is a Cache Error: the translation answers none (R52, R120). -/
theorem transExc_ne_cacheError (k : TransFault) (acc : Access) (va va' : Word) :
    transExc k acc va ≠ .cacheError va' := by
  cases k <;> exact nofun

/-- The exception of a translation records the address translated in BadVAddr (R131). -/
@[simp] theorem badAddr_transExc (k : TransFault) (acc : Access) (va : Word) :
    (transExc k acc va).badAddr = some va := by
  cases k <;> rfl

end Sys2Proof.Machine
end

section
/-! The obligations about which behaviour IRET has, its loads and what they raise (41_iret). -/

namespace Sys2Proof.Machine

/-! Refusals, Coprocessor Unusable, and acting as ERET (R101 to R103, R120). -/

/-- Settles O27: the delay slot is tested first, then what IRET needs enabled. -/
theorem iretUndefinedIsRefused : Obligations.IretUndefinedIsRefused := by
  refine fun s => ⟨fun hd => if_pos hd, fun hd hoff => ?_⟩
  have hdisabled : (!s.srsEnabled || !s.eicModeEnabled) = true := by
    rcases hoff with hhss | hveic
    · simp [State.srsEnabled, hhss]
    · simp [State.eicModeEnabled, hveic]
  rw [exec, execIret, if_neg (by simp [hd]), if_pos hdisabled]

/-- Kernel mode (R150). -/
theorem statusMode_eq_kernel_iff (c : Config) (w : Word) :
    statusMode c w = .kernel ↔ statusKsu c w = 0 ∨ statusExl c w = true ∨ statusErl c w = true := by
  unfold statusMode
  split
  · next h => simp_all [or_comm, or_assoc]
  · next h =>
    simp only [Bool.or_eq_true, beq_iff_eq, not_or, Bool.not_eq_true] at h
    obtain ⟨⟨hexl, herl⟩, hksu⟩ := h
    simp only [hexl, herl, hksu, Bool.false_eq_true, or_self, iff_false]
    split
    · exact nofun
    · split <;> exact nofun

/-- Settles O28: the default condition, and the entry taken before IRET does anything else. -/
theorem iretNeedsCoprocessorZero : Obligations.IretNeedsCoprocessorZero := by
  refine fun s => ⟨fun hstd => ?_, fun hd hsrs heic hu => ?_⟩
  · rw [State.cp0Usable_standard hstd, Bool.or_eq_true, beq_iff_eq, statusMode_eq_kernel_iff, or_assoc, or_assoc]
  · have hexec : exec .iret s = takeException (.coprocessorUnusable 0) s := by
      rw [exec, execIret, if_neg (by simp [hd]), if_neg (by simp [hsrs, heic]), if_pos (by simp [hu])]
    refine ⟨hexec, fun hstd => ⟨_, rfl, hexec.trans (takeException_eq hstd hd nofun), causeExcCode_trapCause ..,
      causeCe_trapCause_coprocessorUnusable .., statusExl_trapEntry _ s, rfl, fun _ _ => rfl, ⟨rfl, rfl⟩, rfl,
      ⟨rfl, rfl, rfl⟩⟩⟩

/-- R101's condition. -/
theorem State.actsAsEret_iff (s : State) :
    s.actsAsEret = true ↔
      intApe s.cfg s.intCtl = false ∨ statusErl s.cfg s.status = true ∨ statusBev s.cfg s.status = true := by
  simp [State.actsAsEret, or_assoc]

/-- IRET that acts as ERET reads neither the stack nor the controller (R101). -/
theorem execIret_of_actsAsEret {s : State} (hd : s.inDelaySlot = false) (hsrs : s.srsEnabled = true)
    (heic : s.eicModeEnabled = true) (hu : s.cp0Usable = true) (ha : s.actsAsEret = true) :
    exec .iret s = .next (eretOperation s) := by
  rw [exec, execIret, if_neg (by simp [hd]), if_neg (by simp [hsrs, heic]), if_neg (by simp [hu]), if_pos ha]

/-- Settles O29: ERET writes none of these; of SRSCtl at most CSS. -/
theorem iretActsAsEret : Obligations.IretActsAsEret := by
  intro s hd hsrs heic hu hor
  refine ⟨execIret_of_actsAsEret hd hsrs heic hu (s.actsAsEret_iff.2 hor), fun _ _ => rfl, rfl, ?_, ⟨rfl, rfl⟩,
    ⟨rfl, rfl, rfl⟩, rfl, rfl, rfl⟩
  rw [eretOperation_srsCtl]
  split
  · exact srsEicss_putCss ..
  · rfl

/-- A jump without microMIPS goes to the target whole (R109). -/
theorem State.jump_of_not_micro {s : State} (h : s.cfg.hasMicroMIPS = false) (t : Word) :
    s.jumpPc t = t ∧ s.jumpIsa t = s.isaMode := by
  simp [State.jumpPc, State.jumpIsa, h]

/-- A jump with microMIPS moves bit 0 to ISAMode (R109). -/
theorem State.jump_of_micro {s : State} (h : s.cfg.hasMicroMIPS = true) (t : Word) :
    s.jumpPc t = t &&& 0xFFFFFFFE ∧ s.jumpIsa t = t.getLsbD 0 := by
  rw [State.jumpPc, State.jumpIsa, if_pos h, if_pos h, ← append_zero_eq_and]
  exact ⟨rfl, rfl⟩

/-- Settles O30: the jump, then the two cases of ERL; the guard's SRSCtl read field by field. -/
theorem eretOperationReturns : Obligations.EretOperationReturns := by
  refine fun s => ⟨rfl, rfl, fun hm => State.jump_of_not_micro hm _, fun hm => State.jump_of_micro hm _,
    fun herl => ?_, fun herl => ?_⟩
  · rw [eretOperation_status, eretOperation_srsCtl, herl]
    exact ⟨rfl, rfl⟩
  · rw [eretOperation_status, eretOperation_srsCtl, herl, Bool.not_false, Bool.true_and]
    simp only [State.setsSwitch_iff]
    refine ⟨rfl, ?_⟩
    split
    · exact ⟨srsCss_putCss .., srsPss_putCss .., srsEss_putCss ..⟩
    · exact ⟨rfl, rfl, rfl⟩

/-! The choice between the two paths (R105, R106). -/

theorem State.noChain_iff (s : State) (tempStatus : Word) (eic : EicSample) :
    s.noChain tempStatus eic = true ↔
      intIce s.cfg s.intCtl = false ∨ eic.ripl ≤ statusIpl s.cfg tempStatus := by
  simp [State.noChain]

/-- R106 decides the path; with ICE 1 a sample has been used up on either (D17). -/
theorem iretSelect_eq (tempStatus : Word) (s : State) :
    iretSelect tempStatus s = if s.noChain tempStatus s.eicOut then
      iretReturn tempStatus (if intIce s.cfg s.intCtl then s.eicDrawn else s)
      else iretChain tempStatus s.eicOut s.eicDrawn := by
  unfold iretSelect
  cases hice : intIce s.cfg s.intCtl
  · have hn : s.noChain tempStatus s.eicOut = true := (s.noChain_iff _ _).2 (.inl hice)
    rw [hn]
    rfl
  · rfl

/-- IRET once its first load has gone through (R105, R106). -/
theorem execIret_select {s : State} (hr : IretReady s) (h4 : WordAccessible s (s.x 29 + 4)) :
    exec .iret s = iretSelect (s.wordAt (s.x 29 + 4)) s := by
  rw [exec, execIret_ready hr, State.loadStackWord_ok h4, Eff.andThen_ok]

theorem execIret_of_returns {s : State} (hr : IretReady s) (h4 : WordAccessible s (s.x 29 + 4)) (h : Returns s) :
    exec .iret s = iretReturn (s.wordAt (s.x 29 + 4)) (if intIce s.cfg s.intCtl then s.eicDrawn else s) := by
  rw [execIret_select hr h4, iretSelect_eq, if_pos ((s.noChain_iff _ _).2 h)]

theorem execIret_of_not_returns {s : State} (hr : IretReady s) (h4 : WordAccessible s (s.x 29 + 4))
    (h : ¬ Returns s) : exec .iret s = iretChain (s.wordAt (s.x 29 + 4)) s.eicOut s.eicDrawn := by
  rw [execIret_select hr h4, iretSelect_eq, if_neg fun hn => h ((s.noChain_iff _ _).1 hn)]

/-- Settles O36: the rule itself, and IRET's use of it. -/
theorem noChainRule : Obligations.NoChainRule := by
  refine ⟨fun s tempStatus eic => ⟨?_, fun heq => ?_⟩, fun s hr h4 => ⟨fun h => ?_, fun h => ?_⟩⟩
  · rw [State.noChain_iff, BitVec.le_def]
    cases intIce s.cfg s.intCtl <;> simp
  · exact (s.noChain_iff _ _).2 (.inr (heq ▸ BitVec.le_refl _))
  · exact execIret_of_returns hr h4 ((s.noChain_iff _ _).1 h)
  · exact execIret_of_not_returns hr h4 fun hn => Bool.false_ne_true (h.symm.trans ((s.noChain_iff _ _).2 hn))

/-! The loads and what they raise (R104, R105, R120). -/

/-- The state after the sample a returning IRET uses up differs from the start in the controller's queue alone. -/
theorem sampled_cases (s : State) :
    (if intIce s.cfg s.intCtl then s.eicDrawn else s) = s ∨
      (if intIce s.cfg s.intCtl then s.eicDrawn else s) = s.eicDrawn := by
  split
  · exact .inr rfl
  · exact .inl rfl

/-- The return path's loads and its check read nothing a sample changes (R100, R105). -/
theorem iretReturn_loads {s s' : State} (hs' : s' = s ∨ s' = s.eicDrawn) (tempStatus : Word) :
    iretReturn tempStatus s' = (s.loadStackWord (s.x 29 + 8)).andThen s' fun b =>
      (s.loadStackWord (s.x 29)).andThen s' fun c =>
        if srsHss s.cfg s.srsCtl < srsPss s.cfg b ∨ srsHss s.cfg s.srsCtl < srsEss s.cfg b then
          .refused .setOutOfRange
        else .next (iretReturnPath tempStatus b c s') := by
  obtain rfl | rfl := hs' <;> rfl

/-- An aligned stack load asks for watchpoints, then translates, then asks the platform (R53, R104). -/
theorem State.loadStackWord_of_aligned {s : State} {va : Word} (h : va.extractLsb' 0 2 = 0) :
    s.loadStackWord va =
      if s.watchMatch va 4 .load then .raise (.watch va)
      else match s.translate va .load with
        | .fault k => .raise (transExc k .load va)
        | .ok _ _ => match s.dataError (s.phys va) with
          | some .bus => .raise (.busError va)
          | some .cache => .raise (.cacheError va)
          | none => .ok (s.wordAt va) := by
  rw [State.loadStackWord, if_pos h, State.memReadWord]
  rcases s.locate_cases va 4 .load with ⟨hw, hl⟩ | ⟨hw, k, ht, hl⟩ | ⟨hw, ht, hl⟩
  · rw [hl, hw]
    rfl
  · rw [hl, hw, ht]
    rfl
  · rw [hl, hw, ht]
    rfl

/-- A misaligned stack load is refused where it is watched and raises Address Error elsewhere (R104, R135). -/
theorem State.loadStackWord_of_misaligned {s : State} {va : Word} (h : va.extractLsb' 0 2 ≠ 0) :
    s.loadStackWord va =
      if s.watchMatch va 4 .load then .refuse .watchOnMisaligned else .raise (.addressError .load va) :=
  if_neg h

/-- A Cache Error of a stack load is one at its own address (R53). -/
theorem State.loadStackWord_cacheError {s : State} {va va' : Word}
    (h : s.loadStackWord va = .raise (.cacheError va')) : va' = va := by
  by_cases ha : va.extractLsb' 0 2 = 0
  · rw [State.loadStackWord_of_aligned ha] at h
    split at h
    · cases h
    split at h
    · next k _ => exact absurd (Eff.raise.inj h) (transExc_ne_cacheError k .load va va')
    split at h
    · cases h
    · cases h; rfl
    · cases h
  · rw [State.loadStackWord_of_misaligned ha] at h
    split at h <;> cases h

/-- IRET is the entry of the exception its first load raises (R105, R120). -/
theorem execIret_of_first_raises {s : State} {e : Exc} (hr : IretReady s)
    (h : s.loadStackWord (s.x 29 + 4) = .raise e) : exec .iret s = takeException e s := by
  rw [exec, execIret_ready hr, h, Eff.andThen_raise]

/-- Adding 4 keeps the alignment. -/
theorem extractLsb'_add_four (w : Word) : (w + 4).extractLsb' 0 2 = w.extractLsb' 0 2 := by
  apply BitVec.eq_of_toNat_eq
  simp [BitVec.extractLsb'_toNat, BitVec.toNat_add]

/-- Settles O40: the first load's address is misaligned as the stack pointer is, and alignment comes before
translation. -/
theorem misalignedStackTraps : Obligations.MisalignedStackTraps := by
  intro s hr hsp
  have hload := State.loadStackWord_of_misaligned (s := s) (extractLsb'_add_four (s.x 29) ▸ hsp)
  refine ⟨fun hw => ?_, fun hw => ?_⟩
  · rw [hw, if_neg Bool.false_ne_true] at hload
    have hexec := execIret_of_first_raises hr hload
    obtain ⟨hd, -⟩ := hr
    exact ⟨hexec, fun hstd => ⟨_, rfl, hexec.trans (takeException_eq hstd hd nofun), rfl, causeExcCode_trapCause ..,
      statusExl_trapEntry _ s, fun _ _ => rfl, ⟨rfl, rfl⟩, rfl, ⟨rfl, rfl, rfl⟩⟩⟩
  · rw [if_pos hw] at hload
    rw [exec, execIret_ready hr, hload, Eff.andThen_refuse]

/-- IRET is the entry of the exception the first of its loads to raise raises (R105, R120). -/
theorem execIret_of_raises {s s' : State} {e : Exc} (hr : IretReady s)
    (h : (s.loadStackWord (s.x 29 + 4) = .raise e ∧ s' = s) ∨
      (WordAccessible s (s.x 29 + 4) ∧ Returns s ∧ s' = (if intIce s.cfg s.intCtl then s.eicDrawn else s) ∧
        (s.loadStackWord (s.x 29 + 8) = .raise e ∨
          (WordAccessible s (s.x 29 + 8) ∧ s.loadStackWord (s.x 29) = .raise e)))) :
    (s' = s ∨ s' = s.eicDrawn) ∧ exec .iret s = takeException e s' := by
  obtain ⟨h4, rfl⟩ | ⟨h4, hret, hs', hlater⟩ := h
  · exact ⟨.inl rfl, execIret_of_first_raises hr h4⟩
  · have hsample : s' = s ∨ s' = s.eicDrawn := by
      rw [hs']
      exact sampled_cases s
    refine ⟨hsample, ?_⟩
    rw [execIret_of_returns hr h4 hret, ← hs', iretReturn_loads hsample]
    obtain h8 | ⟨h8, h0⟩ := hlater
    · rw [h8, Eff.andThen_raise]
    · rw [State.loadStackWord_ok h8, Eff.andThen_ok, h0, Eff.andThen_raise]

/-- Settles O41: the exception's entry, in a state whose registers are those at the start. -/
theorem firstFailingLoadIsTaken : Obligations.FirstFailingLoadIsTaken := by
  intro s s' e hr h
  obtain ⟨hs', hexec⟩ := execIret_of_raises hr h
  obtain ⟨hd, -⟩ := hr
  refine ⟨hexec, fun hstd he => ⟨_, rfl, ?_⟩⟩
  obtain rfl | rfl := hs'
  all_goals exact ⟨hexec.trans (takeException_eq hstd hd he), causeExcCode_trapCause .., rfl, statusExl_trapEntry e _,
    fun _ _ => rfl, ⟨rfl, rfl⟩, rfl, rfl⟩

/-- Settles O42: the order of the questions an aligned load asks, and the entry of what the first load raises. -/
theorem stackLoadExceptions : Obligations.StackLoadExceptions := by
  intro s va ha
  have hload := State.loadStackWord_of_aligned (s := s) ha
  refine ⟨fun hw => ?_, fun hw => ⟨fun k hk => ?_, fun hk => ?_⟩, ?_⟩
  · rw [hload, if_pos hw]
  · rw [hload, if_neg (by simp [hw]), hk]
  · obtain hok | ⟨k, hfault⟩ := s.translate_cases va .load
    · rw [hload, if_neg (by simp [hw]), hok]
      exact ⟨fun hd => by rw [hd], fun hd => by rw [hd], fun hd => by rw [hd]⟩
    · exact absurd hfault (hk k)
  · rintro hr rfl e hraise
    have hexec := execIret_of_first_raises hr hraise
    obtain ⟨hd, -⟩ := hr
    refine ⟨hexec, fun hstd => ⟨?_, fun hne => ?_⟩⟩
    · rintro rfl
      exact hexec.trans (takeException_cacheError hstd hd _)
    · refine hexec.trans (takeException_eq hstd hd ?_)
      rintro va rfl
      exact hne (by rw [State.loadStackWord_cacheError hraise])

/-- Settles O39: the image's numbers are tested when all three words are loaded, the sample's when the first is. -/
theorem setOutOfRangeIsRefused : Obligations.SetOutOfRangeIsRefused := by
  refine fun s hr => ⟨fun ⟨h4, h8, h0⟩ hret himage => ?_, fun h4 hret hss => ?_⟩
  · have hout : srsHss s.cfg s.srsCtl < srsPss s.cfg (s.wordAt (s.x 29 + 8)) ∨
        srsHss s.cfg s.srsCtl < srsEss s.cfg (s.wordAt (s.x 29 + 8)) := by
      by_contra hin
      rw [not_or, BitVec.not_lt, BitVec.not_lt] at hin
      exact himage hin
    rw [execIret_of_returns hr h4 hret, iretReturn_loads (sampled_cases s), State.loadStackWord_ok h8, Eff.andThen_ok,
      State.loadStackWord_ok h0, Eff.andThen_ok, if_pos hout]
  · rw [execIret_of_not_returns hr h4 hret]
    exact if_pos hss

end Sys2Proof.Machine
end

section
/-! The obligations about what IRET's two paths leave, and what no IRET does (41_iret). -/

namespace Sys2Proof.Machine

/-! The return path (R107 to R109). -/

/-- Each bit of Status on the return path: the image's under the mask, EXL cleared (R107, R108). -/
theorem getLsbD_returnStatus (s : State) (tempStatus : Word) (n : Nat) :
    (s.returnStatus tempStatus).getLsbD n =
      if n = s.cfg.layout.exl then false
      else if s.cfg.statusWMask.getLsbD n then tempStatus.getLsbD n else s.status.getLsbD n := by
  rw [State.returnStatus, getLsbD_putBit _ _ _ _ s.cfg.layout.exl_lt, getLsbD_writeStatus]

/-- Settles O32: with ICE 0 the path runs in the state at the start, with ICE 1 in that with one sample used up. -/
theorem iretReturnPathJumps : Obligations.IretReturnPathJumps := by
  intro s h
  obtain ⟨s', hs', hexec⟩ := execIret_return h
  refine ⟨_, hexec, ?_⟩
  obtain ⟨rfl, hice⟩ | ⟨rfl, hice⟩ := hs'
  · refine ⟨getLsbD_returnStatus s' _, fun hm => State.jump_of_not_micro hm _, fun hm => State.jump_of_micro hm _, rfl,
      rfl, rfl, ?_, ⟨rfl, rfl⟩, rfl, rfl, rfl⟩
    rw [if_neg (by simp [hice])]
    exact ⟨rfl, rfl, rfl⟩
  · refine ⟨getLsbD_returnStatus s.eicDrawn _, fun hm => State.jump_of_not_micro (s := s) hm _,
      fun hm => State.jump_of_micro (s := s) hm _, rfl, rfl, rfl, ?_, ⟨rfl, rfl⟩, rfl, rfl, rfl⟩
    rw [if_pos hice]
    rfl

/-- A mask that holds ERL and KSU lets the image's values of both through to Status (R37, R107). -/
theorem returnStatus_of_soundConfig {s : State} (h : SoundConfig s.cfg) (tempStatus : Word) :
    statusErl s.cfg (s.returnStatus tempStatus) = statusErl s.cfg tempStatus ∧
      statusKsu s.cfg (s.returnStatus tempStatus) = statusKsu s.cfg tempStatus := by
  obtain ⟨hmask, -⟩ := h
  constructor
  · have herl := hmask ⟨s.cfg.layout.erl, s.cfg.layout.erl_lt⟩ (.inr (.inr (.inl rfl)))
    rw [State.returnStatus, statusErl_putExl, statusErl, getLsbD_writeStatus, if_pos herl, statusErl]
  · rw [State.returnStatus, statusKsu_putExl]
    apply BitVec.eq_of_getLsbD_eq
    intro i hi
    have hle := s.cfg.layout.ksu_le
    have hksu := hmask ⟨s.cfg.layout.ksu + i, by omega⟩ (.inr (.inr (.inr (.inl ⟨by simp, by simpa using hi⟩))))
    rw [statusKsu, statusKsu, BitVec.getLsbD_extractLsb', BitVec.getLsbD_extractLsb', getLsbD_writeStatus, if_pos hksu]

/-- Settles O33: EXL is cleared, and ERL and KSU, which select the mode, are the image's. -/
theorem iretReturnsToTheImagesMode : Obligations.IretReturnsToTheImagesMode := by
  intro s h hsound
  obtain ⟨t, hexec, -, hstatus, -⟩ := execIret_return_writes h
  obtain ⟨herl, hksu⟩ := returnStatus_of_soundConfig hsound (s.wordAt (s.x 29 + 4))
  have hexl := statusExl_returnStatus s (s.wordAt (s.x 29 + 4))
  rw [← hstatus] at herl hksu hexl
  refine ⟨t, hexec, fun h1 => ?_, fun h0 => ⟨fun hk => ?_, fun hk => ?_, fun hk => ?_⟩⟩
  · exact (statusMode_eq_kernel_iff _ _).2 (.inr (.inr (herl.trans h1)))
  · exact (statusMode_eq_kernel_iff _ _).2 (.inl (hksu.trans hk))
  · rw [statusMode, hexl, herl.trans h0, hksu.trans hk]
    rfl
  · rw [statusMode, hexl, herl.trans h0, hksu.trans hk]
    rfl

/-! The chaining path (R110 to R112). -/

/-- Each bit of Status on the chaining path outside the fields it writes: the image's under the mask (R107, R111). -/
theorem getLsbD_chainStatus {s : State} {n : Nat} (tempStatus : Word) (eic : EicSample) (hipl : ¬ isIplBit s.cfg n)
    (hclr : ¬ (intClrExl s.cfg s.intCtl = true ∧ (n = s.cfg.layout.exl ∨ inField s.cfg.layout.ksu 2 n))) :
    (s.chainStatus tempStatus eic).getLsbD n =
      if s.cfg.statusWMask.getLsbD n then tempStatus.getLsbD n else s.status.getLsbD n := by
  have hwrite : (putStatusIpl s.cfg (writeStatus s.cfg.statusWMask s.status tempStatus) eic.ripl).getLsbD n =
      if s.cfg.statusWMask.getLsbD n then tempStatus.getLsbD n else s.status.getLsbD n := by
    rw [getLsbD_putStatusIpl _ _ _ _ hipl, getLsbD_writeStatus]
  unfold State.chainStatus
  dsimp only
  split
  · next hon =>
    have hout := fun hin => hclr ⟨hon, hin⟩
    rw [getLsbD_putField _ _ _ _ s.cfg.layout.ksu_le, if_neg fun hin => hout (.inr hin),
      getLsbD_putBit _ _ _ _ s.cfg.layout.exl_lt, if_neg fun hin => hout (.inl hin), hwrite]
  · exact hwrite

/-- Settles O35: the vector reads nothing the jump writes, and each other bit of Status and Cause is kept. -/
theorem iretChainJumps : Obligations.IretChainJumps := by
  intro s h
  obtain ⟨v, hv, hexec⟩ := execIret_chain h
  refine ⟨_, v, hexec, hv, fun hm => State.jump_of_not_micro (s := s) hm v, fun hm => State.jump_of_micro (s := s) hm v,
    fun n hipl hclr => getLsbD_chainStatus (s := s) _ _ hipl hclr, fun n hripl hic => ?_, rfl, ⟨rfl, rfl⟩, rfl, rfl,
    rfl⟩
  rw [State.jump_cause, iretChainAccept_cause, State.eicDrawn_cfg, State.eicDrawn_cause,
    getLsbD_putBit _ _ _ _ s.cfg.layout.ic_lt, if_neg hic]
  exact getLsbD_putCauseRipl _ _ _ n hripl

/-! The frame (R35, R66, R100). -/

/-- What IRET leaves where it completes: memory, and every register but 29 of every set; LLbit is cleared. -/
theorem completes_iret {s t : State} (h : Completes s .iret t) :
    SameMemory s t ∧ (∀ set r, r ≠ 29 → t.xs set r = s.xs set r) ∧ t.llBit = false := by
  cases h with
  | atomic v hi => simp at hi
  | eret hu ha => exact ⟨⟨rfl, rfl⟩, fun _ _ _ => rfl, rfl⟩
  | @ret s' a b c hu ha hs' hpss hess =>
    have hpopped : ∀ set r, r ≠ 29 → (iretReturnPath a b c s').xs set r = s'.xs set r := fun set r hr => by
      rw [State.xs_of_writeGpr (iretReturnPath_gpr ..), if_neg fun ⟨_, _, h⟩ => hr h]
    obtain rfl | rfl := hs'
    all_goals exact ⟨⟨rfl, rfl⟩, hpopped, rfl⟩
  | chain a v hu ha hice hss =>
    refine ⟨⟨rfl, rfl⟩, fun set r hr => ?_, rfl⟩
    rw [State.xs_of_chain (s := s) (new := s.eicOut.ss) rfl, if_neg fun ⟨_, h⟩ => hr h, if_neg fun ⟨_, h⟩ => hr h]

/-- What IRET leaves on every path, an exception's by any entry too (log 48). -/
theorem execIret_sameFixed {s t : State} (h : exec .iret s = .next t) :
    SameFixed s t ∧ t.stored = s.stored ∧ t.irqIn = s.irqIn ∧ t.resetIn = s.resetIn := by
  obtain ⟨e, s', hs', htrap⟩ | hdone := exec_next_cases h
  · obtain ⟨hfixed, -, hstored, hirq, hreset⟩ := sameFixed_takeException htrap
    obtain rfl | rfl := hs' <;> exact ⟨hfixed, hstored, hirq, hreset⟩
  · obtain ⟨⟨hfixed, -⟩, hirq, hreset⟩ := completes_sameConfiguration hdone
    obtain ⟨⟨-, hstored⟩, -⟩ := completes_iret hdone
    exact ⟨hfixed, hstored, hirq, hreset⟩

/-- Settles O43: an exception by its entry, a completed IRET by its path, and acting as ERET by its one state. -/
theorem iretFrame : Obligations.IretFrame := by
  intro s t h
  obtain ⟨hfixed, hstored, hirq, hreset⟩ := execIret_sameFixed h
  refine ⟨hfixed, hstored, hirq, hreset, fun hor => ?_, fun hu ha => ?_⟩
  · obtain htook | hdone := exec_next h
    · obtain ⟨hconfig, hregs, hmem, -⟩ := tookException_standard (hor.resolve_left (not_not_intro htook)) htook
      exact ⟨hmem, hconfig, fun set r _ => hregs set r⟩
    · obtain ⟨hmem, hregs, -⟩ := completes_iret hdone
      obtain ⟨hconfig, -⟩ := completes_sameConfiguration hdone
      exact ⟨hmem, hconfig, hregs⟩
  · obtain ⟨hd, hsrs, heic, -⟩ := execIret_next h
    cases h.symm.trans (execIret_of_actsAsEret hd hsrs heic hu ha)
    exact ⟨fun _ _ => rfl, rfl, rfl, rfl⟩

/-- Settles O44: the three paths clear LLbit; the rest is what taking an exception left. -/
theorem iretClearsLlBit : Obligations.IretClearsLlBit := by
  intro s t h
  obtain htook | hdone := exec_next h
  · refine .inr ⟨htook, fun hstd => ?_⟩
    obtain ⟨-, hregs, -, hll, hstatus, -⟩ := tookException_standard hstd htook
    exact ⟨hll, by rw [hstatus, statusExl_putExl], hregs⟩
  · obtain ⟨-, -, hll⟩ := completes_iret hdone
    exact .inl hll

/-! What no instruction answers. -/

/-- An outcome that is neither InterruptTaken, which only a boundary answers (R138), nor the lost arm of the vector
(R115). -/
structure Regular (o : Out) : Prop where
  noInterrupt : ∀ q, o ≠ .fault (.interruptTaken q)
  noLostArm : o ≠ .refused .vectorNumLost

theorem regular_next (t : State) : Regular (.next t) := ⟨nofun, nofun⟩

theorem regular_refused {r : Refusal} (h : r ≠ .vectorNumLost) : Regular (.refused r) :=
  ⟨nofun, fun heq => h (Host.Outcome.refused.inj heq)⟩

theorem regular_takeException (e : Exc) (s : State) : Regular (takeException e s) := by
  unfold takeException
  split
  · unfold takeStandard
    split
    · exact regular_refused nofun
    · split
      · exact ⟨nofun, nofun⟩
      · exact regular_next _
  · split
    · exact regular_next _
    · exact regular_refused nofun

/-- Going on from an access is regular if its refusal and all that follows are. -/
theorem regular_andThen {α : Type} {m : Eff α} {s : State} {k : α → Out} (hm : m ≠ .refuse .vectorNumLost)
    (hk : ∀ a, Regular (k a)) : Regular (m.andThen s k) := by
  cases m with
  | ok a => exact hk a
  | raise e => exact regular_takeException e s
  | refuse r => exact regular_refused fun h => hm (h ▸ rfl)

theorem loadStackWord_ne_lostArm (s : State) (va : Word) : s.loadStackWord va ≠ .refuse .vectorNumLost := by
  intro h
  obtain ⟨hr, -⟩ := State.loadStackWord_refuse h
  cases hr

theorem regular_atomicBit (change : Nat → Byte → Byte) (base bit : Nat) (offset : Int) (s : State) :
    Regular (atomicBit change base bit offset s) := by
  unfold atomicBit
  split
  · exact regular_refused nofun
  split
  · refine regular_andThen ?_ fun _ => regular_next _
    obtain ⟨-, hr⟩ | ⟨-, hr⟩ | ⟨-, k, -, hr⟩ := s.memReadByte_cases (s.effAddr base offset)
    all_goals
      rw [hr]
      exact nofun
  · exact regular_refused nofun

theorem regular_iretReturn (tempStatus : Word) (s : State) : Regular (iretReturn tempStatus s) := by
  refine regular_andThen (loadStackWord_ne_lostArm _ _) fun b => ?_
  refine regular_andThen (loadStackWord_ne_lostArm _ _) fun c => ?_
  split
  · exact regular_refused nofun
  · exact regular_next _

/-- Under Config3.VEIC, which IRET has tested before, the chaining path does not need the lost arm (R115). -/
theorem regular_iretChain {s : State} (h : cfg3Veic s.cfg s.config3 = true) (tempStatus : Word) (eic : EicSample) :
    Regular (iretChain tempStatus eic s) := by
  obtain ⟨v, hv⟩ := State.calcIntrptAddress_some (s := iretChainAccept tempStatus eic s) h eic
  unfold iretChain
  split
  · exact regular_refused nofun
  split
  · exact regular_refused nofun
  · dsimp only
    rw [hv]
    exact regular_next _

theorem regular_execIret (s : State) : Regular (execIret s) := by
  unfold execIret
  split
  · exact regular_refused nofun
  split
  · exact regular_refused nofun
  next hen =>
  split
  · exact regular_takeException _ _
  split
  · exact regular_next _
  refine regular_andThen (loadStackWord_ne_lostArm _ _) fun tempStatus => ?_
  rw [State.clearHazards_eq, iretSelect_eq]
  split
  · exact regular_iretReturn _ _
  · refine regular_iretChain (s := s.eicDrawn) ?_ _ _
    simp only [Bool.or_eq_true, Bool.not_eq_true', not_or, Bool.not_eq_false] at hen
    exact hen.2

theorem regular_exec (i : Instr) (s : State) : Regular (exec i s) := by
  cases i with
  | aclr base bit offset => exact regular_atomicBit clearBit base bit offset s
  | aset base bit offset => exact regular_atomicBit setBit base bit offset s
  | iret => exact regular_execIret s

/-- Settles O38: IRET's outcomes are regular, since it has tested VEIC before it computes a vector. -/
theorem lostArmIsUnreachable : Obligations.LostArmIsUnreachable :=
  fun s => (regular_execIret s).noLostArm

end Sys2Proof.Machine
end

section
/-! The obligations about ACLR and ASET (40_atomic_bit). -/

namespace Sys2Proof.Machine

/-! The effect and the frame (R90, R91, R94, R95). -/

/-- The change that sets the bit or clears it. -/
def changeBit (set : Bool) : Nat → Byte → Byte :=
  if set then setBit else clearBit

theorem exec_setOrClear (set : Bool) (base bit : Nat) (offset : Int) (s : State) :
    exec (if set then Instr.aset base bit offset else Instr.aclr base bit offset) s =
      atomicBit (changeBit set) base bit offset s := by
  cases set <;> rfl

/-- The bits of a byte after either change: the one bit set or cleared, the others as before (R90, R91). -/
theorem getLsbD_changeBit (set : Bool) {bit : Nat} (h : bit < 8) (b : Byte) (j : Nat) :
    (changeBit set bit b).getLsbD j = if j = bit then set else b.getLsbD j := by
  cases set
  · rw [changeBit, if_neg Bool.false_ne_true, getLsbD_clearBit h]
    by_cases hj : j = bit <;> simp [hj]
  · rw [changeBit, if_pos rfl, getLsbD_setBit h]
    by_cases hj : j = bit <;> simp [hj]

/-- ACLR and ASET where the access goes through: the addressed byte is changed, and the pc moves on (R90, R91). -/
theorem exec_atomic_effect (set : Bool) {base bit : Nat} {offset : Int} {s : State} (hd : s.inDelaySlot = false)
    (hf : operandsFit base bit offset) (ha : ByteAccessible s (s.effAddr base offset)) :
    ∃ t, exec (if set then Instr.aset base bit offset else Instr.aclr base bit offset) s = .next t ∧
      (∀ j, (Memory.read t.mem (s.phys (s.effAddr base offset))).getLsbD j =
        if j = bit then set else (s.byteAt (s.effAddr base offset)).getLsbD j) ∧
      t.pc = s.pc + 4 ∧ t.isaMode = s.isaMode ∧
      (∀ a, a ≠ s.phys (s.effAddr base offset) → Memory.read t.mem a = Memory.read s.mem a) ∧
      SameRegs s t ∧ SameCp0 s t ∧ t.llBit = s.llBit ∧ SameEic s t := by
  refine ⟨_, (exec_setOrClear set base bit offset s).trans (atomicBit_eq hd hf ha), fun j => ?_, rfl, rfl,
    fun a hne => ?_, fun _ _ => rfl, ⟨rfl, rfl, rfl, rfl, rfl, rfl, rfl, rfl, rfl, rfl, rfl, rfl⟩, rfl, rfl, rfl, rfl⟩
  · obtain ⟨-, hbit, -⟩ := hf
    rw [State.advance_mem, State.read_memWriteByte, if_pos rfl, getLsbD_changeBit set hbit]
  · rw [State.advance_mem, State.read_memWriteByte, if_neg hne]

/-- Settles O18: the shared effect, for the change that clears. -/
theorem aclrClearsTheBit : Obligations.AclrClearsTheBit := by
  intro base bit offset s hd hf ha
  obtain ⟨t, hexec, hbyte, hrest⟩ := exec_atomic_effect false hd hf ha
  refine ⟨t, hexec, fun j => ?_, hrest⟩
  rw [hbyte]
  by_cases hj : j = bit <;> simp [hj]

/-- Settles O19: the shared effect, for the change that sets. -/
theorem asetSetsTheBit : Obligations.AsetSetsTheBit := by
  intro base bit offset s hd hf ha
  obtain ⟨t, hexec, hbyte, hrest⟩ := exec_atomic_effect true hd hf ha
  refine ⟨t, hexec, fun j => ?_, hrest⟩
  rw [hbyte]
  by_cases hj : j = bit <;> simp [hj]

/-- ACLR and ASET go on by writing a byte where the access goes through, and by taking an exception elsewhere. -/
theorem exec_atomic_next {base bit : Nat} {offset : Int} {s t : State} {i : Instr}
    (hi : i ∈ [Instr.aclr base bit offset, Instr.aset base bit offset]) (h : exec i s = .next t) :
    (ByteAccessible s (s.effAddr base offset) ∧ ∃ v, t = (s.memWriteByte (s.effAddr base offset) v).advance) ∨
      (¬ ByteAccessible s (s.effAddr base offset) ∧ ∃ e, takeException e s = .next t) := by
  obtain ⟨change, hexec⟩ := exec_eq_atomicBit hi
  rw [hexec] at h
  obtain ⟨hd, hf, -⟩ := atomicBit_next h
  by_cases ha : ByteAccessible s (s.effAddr base offset)
  · rw [atomicBit_eq hd hf ha] at h
    cases h
    exact .inl ⟨ha, _, rfl⟩
  · refine .inr ⟨ha, ?_⟩
    rw [atomicBit_run hd hf] at h
    obtain ⟨hyes, -⟩ | ⟨-, hr⟩ | ⟨-, k, -, hr⟩ := s.memReadByte_cases (s.effAddr base offset)
    · exact absurd hyes ha
    · rw [hr] at h; exact ⟨_, h⟩
    · rw [hr] at h; exact ⟨_, h⟩

/-- Settles O20: a byte write leaves every register, and an exception what its entry leaves. -/
theorem atomicLeavesTheRestAlone : Obligations.AtomicLeavesTheRestAlone := by
  intro base bit offset s t i hi h
  obtain ⟨ha, v, rfl⟩ | ⟨hna, e, htrap⟩ := exec_atomic_next hi h
  · refine ⟨fun _ => ⟨fun _ _ => rfl, ⟨rfl, rfl, rfl, rfl, rfl, rfl, rfl, rfl, rfl, rfl, rfl, rfl⟩, rfl,
      ⟨rfl, rfl, rfl⟩, ⟨⟨rfl, rfl, rfl, rfl, rfl, rfl, rfl⟩, rfl, rfl⟩, fun a hne => ?_⟩, fun hna => absurd ha hna⟩
    rw [State.advance_mem, State.read_memWriteByte, if_neg hne]
  · obtain ⟨hfixed, heic, hstored, -⟩ := sameFixed_takeException htrap
    refine ⟨fun ha => absurd ha hna, fun _ => ⟨heic, hfixed, hstored, fun hstd => ?_⟩⟩
    obtain ⟨hconfig, hregs, hmem, hll, -⟩ := tookException_standard hstd ⟨e, s, rfl, rfl, rfl, htrap⟩
    exact ⟨hregs, hmem, hll, hconfig⟩

/-- Settles O24: neither the byte write nor the default entry writes Status.IE. -/
theorem statusIeIsKept : Obligations.StatusIeIsKept := by
  intro base bit offset s t i hi h hor
  obtain ⟨-, v, rfl⟩ | ⟨hna, e, htrap⟩ := exec_atomic_next hi h
  · rfl
  · obtain ⟨-, rfl⟩ := takeException_next_standard (hor.resolve_left hna) htrap
    exact statusIe_putExl ..

/-- The byte access raises Watch where it is watched, and the translation's exception elsewhere (R53, R95). -/
theorem State.memReadByte_raise {s : State} {va : Word} {e : Exc}
    (h : (s.watchMatch va 1 .store = true ∧ e = .watch va) ∨
      ∃ k, s.watchMatch va 1 .store = false ∧ s.translate va .store = .fault k ∧ e = transExc k .store va) :
    s.memReadByte va = .raise e := by
  rw [State.memReadByte, State.locate]
  obtain ⟨hw, rfl⟩ | ⟨k, hw, hk, rfl⟩ := h
  · rw [hw]
    rfl
  · rw [hw, hk]
    rfl

/-- Settles O22: each exception in turn has its code and its address. -/
theorem atomicRaises : Obligations.AtomicRaises := by
  intro base bit offset s i e hi hd hf he
  obtain ⟨change, hchange⟩ := exec_eq_atomicBit hi
  have hexec : exec i s = takeException e s := by
    rw [hchange, atomicBit_run hd hf, State.memReadByte_raise he, Eff.andThen_raise]
  refine ⟨hexec, fun hstd => ?_⟩
  have hcache : ∀ va, e ≠ .cacheError va := by
    obtain ⟨-, rfl⟩ | ⟨k, -, -, rfl⟩ := he
    · exact nofun
    · exact transExc_ne_cacheError k _ _
  have hnext := hexec.trans (takeException_eq hstd hd hcache)
  refine ⟨_, rfl, hnext, statusExl_trapEntry e s, ?_, ?_, fun _ _ => rfl, ⟨rfl, rfl⟩, rfl⟩
  · rw [trapEntry_cause, causeExcCode_trapCause]
    obtain ⟨-, rfl⟩ | ⟨k, -, -, rfl⟩ := he
    · rfl
    · cases k <;> rfl
  · rw [trapEntry_badVAddr]
    obtain ⟨hw, rfl⟩ | ⟨k, hw, -, rfl⟩ := he
    · rw [if_pos hw]
      rfl
    · rw [if_neg (by simp [hw]), badAddr_transExc]
      rfl

/-! The byte lanes of the source's Operation (R93). -/

/-- The lane of byte `k` of a word: its own number in the little-endian order, counted from the other end in the
big-endian order (R92, line 7). -/
def laneOf (be : Bool) (k : Fin 4) : Fin 4 :=
  if be then k.rev else k

theorem laneOf_laneOf (be : Bool) (k : Fin 4) : laneOf be (laneOf be k) = k := by
  cases be
  · rfl
  · exact Fin.rev_rev k

theorem busLane_eq (be : Bool) (va : Word) : busLane be va = laneOf be (va.extractLsb' 0 2).toFin := by
  have hxor : ∀ a : BitVec 2, (a ^^^ if be then 3 else 0).toNat = laneOf be a.toFin := by
    cases be <;> decide
  exact hxor _

/-- A word in either byte order is the little-endian word of its lanes (R55). -/
theorem wordOfBytes_eq_lanes (be : Bool) (b : Fin 4 → Byte) :
    wordOfBytes be (b 0) (b 1) (b 2) (b 3) =
      wordOfBytes false (b (laneOf be 0)) (b (laneOf be 1)) (b (laneOf be 2)) (b (laneOf be 3)) := by
  cases be <;> rfl

/-- Storing to a lane of a little-endian word replaces that byte (R92). -/
theorem putField_wordOfBytes_little (c : Fin 4 → Byte) (k : Fin 4) (v : Byte) :
    putField (wordOfBytes false (c 0) (c 1) (c 2) (c 3)) (8 * k) v =
      wordOfBytes false (Function.update c k v 0) (Function.update c k v 1) (Function.update c k v 2)
        (Function.update c k v 3) := by
  apply BitVec.eq_of_getLsbD_eq
  intro i hi
  rw [getLsbD_putField _ _ _ _ (by omega), getLsbD_wordOfBytes, getLsbD_wordOfBytes]
  fin_cases k
  all_goals
    simp only [Function.update_apply]
    grind

/-- Replacing the byte of a lane is replacing the byte that the lane holds. -/
theorem update_laneOf (be : Bool) (b : Fin 4 → Byte) (k : Fin 4) (v : Byte) (j : Fin 4) :
    Function.update (fun j => b (laneOf be j)) (laneOf be k) v j = Function.update b k v (laneOf be j) := by
  have hiff : j = laneOf be k ↔ laneOf be j = k :=
    ⟨fun h => by rw [h, laneOf_laneOf], fun h => by rw [← h, laneOf_laneOf]⟩
  simp only [Function.update_apply, hiff]

/-- The lane of an address holds the byte at the address (R93). -/
theorem laneByte_wordOfBytes (be : Bool) (va : Word) (b : Fin 4 → Byte) :
    laneByte (wordOfBytes be (b 0) (b 1) (b 2) (b 3)) (busLane be va) = b (va.extractLsb' 0 2).toFin := by
  rw [wordOfBytes_eq_lanes, busLane_eq]
  exact (extractLsb'_wordOfBytes_little (fun j => b (laneOf be j)) _).trans (congrArg b (laneOf_laneOf be _))

/-- Storing to the lane of an address replaces the byte at the address (R93). -/
theorem laneStore_wordOfBytes (be : Bool) (va : Word) (b : Fin 4 → Byte) (v : Byte) :
    laneStore (wordOfBytes be (b 0) (b 1) (b 2) (b 3)) (busLane be va) v =
      wordOfBytes be (Function.update b (va.extractLsb' 0 2).toFin v 0)
        (Function.update b (va.extractLsb' 0 2).toFin v 1) (Function.update b (va.extractLsb' 0 2).toFin v 2)
        (Function.update b (va.extractLsb' 0 2).toFin v 3) := by
  rw [wordOfBytes_eq_lanes be b, wordOfBytes_eq_lanes be (Function.update b _ v), busLane_eq, laneStore]
  have hstore := putField_wordOfBytes_little (fun j => b (laneOf be j)) (laneOf be (va.extractLsb' 0 2).toFin) v
  simp only [update_laneOf] at hstore
  exact hstore

/-- Settles O23: the lanes are the bytes in the order of the bus. -/
theorem busLaneIsTheAddressedByte : Obligations.BusLaneIsTheAddressedByte :=
  fun be va b v => ⟨laneByte_wordOfBytes be va b, laneStore_wordOfBytes be va b v⟩

/-! Two instructions on one byte (R98). -/

theorem changeBit_comm (p q : Bool) {j k : Nat} (hj : j < 8) (hk : k < 8) (hne : j ≠ k) (b : Byte) :
    changeBit q k (changeBit p j b) = changeBit p j (changeBit q k b) := by
  apply BitVec.eq_of_getLsbD_eq
  intro i _
  simp only [getLsbD_changeBit _ hj, getLsbD_changeBit _ hk]
  by_cases hik : i = k
  · subst hik
    rw [if_pos rfl, if_neg hne.symm, if_pos rfl]
  · rw [if_neg hik, if_neg hik]

/-- An access goes through again after a byte write that leaves the address's translation for a store as it was, and
to the same physical byte (R52, R53). -/
theorem byteAccessible_memWriteByte {s : State} {va : Word} {v : Byte} (ha : ByteAccessible s va)
    (h : (s.memWriteByte va v).advance.translate va .store = s.translate va .store) :
    ByteAccessible (s.memWriteByte va v).advance va ∧ (s.memWriteByte va v).advance.phys va = s.phys va := by
  obtain ⟨hw, hok⟩ := ha
  rw [hok] at h
  obtain ht | ⟨k, hk⟩ := (s.memWriteByte va v).advance.translate_cases va .store
  · exact ⟨⟨hw, ht⟩, (Translation.ok.inj (ht.symm.trans h)).1⟩
  · rw [hk] at h
    cases h

/-- The second of two byte writes to one physical byte is the one that stays (R54). -/
theorem memWriteByte_memWriteByte {s : State} {va : Word} {v : Byte}
    (h : (s.memWriteByte va v).advance.phys va = s.phys va) (w : Byte) :
    (s.memWriteByte va v).advance.memWriteByte va w = (s.memWriteByte va w).advance := by
  rw [State.memWriteByte, h]
  simp only [State.advance_mem, State.advance_stored, State.memWriteByte_mem, State.memWriteByte_stored,
    Memory.write_write, markStored_markStored]
  rfl

/-- After a write of the byte that leaves the translation as it was, the instruction completes on the byte written
(R98). -/
theorem exec_after_memWriteByte (q : Bool) {base k : Nat} {offset : Int} {s : State} (v : Byte)
    (hd : s.inDelaySlot = false) (hk : operandsFit base k offset) (ha : ByteAccessible s (s.effAddr base offset))
    (h : (s.memWriteByte (s.effAddr base offset) v).advance.translate (s.effAddr base offset) .store =
      s.translate (s.effAddr base offset) .store) :
    exec (if q then Instr.aset base k offset else Instr.aclr base k offset)
      (s.memWriteByte (s.effAddr base offset) v).advance =
        .next (s.memWriteByte (s.effAddr base offset) (changeBit q k v)).advance.advance := by
  obtain ⟨ha', hphys⟩ := byteAccessible_memWriteByte ha h
  have haddr : (s.memWriteByte (s.effAddr base offset) v).advance.effAddr base offset = s.effAddr base offset := rfl
  have hbyte : (s.memWriteByte (s.effAddr base offset) v).advance.byteAt (s.effAddr base offset) = v := by
    rw [State.byteAt, hphys, State.advance_mem, State.read_memWriteByte, if_pos rfl]
  rw [exec_setOrClear, atomicBit_eq (s := (s.memWriteByte (s.effAddr base offset) v).advance) hd hk ha', haddr, hbyte,
    memWriteByte_memWriteByte hphys]

/-- Settles O25: in either order both changes reach the byte, and changes of different bits commute. -/
theorem differentBitsCommute : Obligations.DifferentBitsCommute := by
  intro base j k offset s p q hd hj hk hne ha op
  refine ⟨_, _, (exec_setOrClear p base j offset s).trans (atomicBit_eq hd hj ha),
    (exec_setOrClear q base k offset s).trans (atomicBit_eq hd hk ha), fun ht ht' =>
      ⟨_, exec_after_memWriteByte q _ hd hk ha ht, ?_⟩⟩
  have hother := exec_after_memWriteByte p _ hd hj ha ht'
  obtain ⟨-, hjlt, -⟩ := hj
  obtain ⟨-, hklt, -⟩ := hk
  rw [changeBit_comm p q hjlt hklt hne]
  exact hother

/-! The aligned word around the byte (R56). -/

/-- The four bytes of the word at an address. -/
def State.bytesFrom (s : State) (va : Word) (m : Fin 4) : Byte :=
  s.byteAt (va + BitVec.ofNat 32 m)

theorem State.wordAt_eq_bytesFrom (s : State) (va : Word) :
    s.wordAt va = wordOfBytes s.cfg.bigEndianCPU (s.bytesFrom va 0) (s.bytesFrom va 1) (s.bytesFrom va 2)
      (s.bytesFrom va 3) := by
  have hzero : s.bytesFrom va 0 = s.byteAt va := congrArg s.byteAt (BitVec.add_zero va)
  rw [hzero]
  rfl

/-- An address is its aligned word's address plus its low two bits. -/
theorem aligned_add_low (va : Word) : (va &&& 0xFFFFFFFC) + BitVec.ofNat 32 (va.extractLsb' 0 2).toNat = va := by
  rw [BitVec.ofNat_toNat, BitVec.add_eq_or_of_and_eq_zero]
  all_goals
    apply BitVec.eq_of_getLsbD_eq
    intro i hi
    interval_cases i <;> simp

/-- A byte write that leaves the mapping of the aligned word as it was shows as one byte of the word replaced, where
the four are different physical bytes (R51, R54). -/
theorem bytesFrom_memWriteByte {s : State} {va : Word} (v : Byte)
    (hdistinct : Function.Injective fun m : Fin 4 => s.phys ((va &&& 0xFFFFFFFC) + BitVec.ofNat 32 m))
    (hsame : ∀ m : Fin 4, (s.memWriteByte va v).advance.phys ((va &&& 0xFFFFFFFC) + BitVec.ofNat 32 m) =
      s.phys ((va &&& 0xFFFFFFFC) + BitVec.ofNat 32 m)) (m : Fin 4) :
    (s.memWriteByte va v).advance.bytesFrom (va &&& 0xFFFFFFFC) m =
      Function.update (s.bytesFrom (va &&& 0xFFFFFFFC)) (va.extractLsb' 0 2).toFin v m := by
  have hva : s.phys va =
      s.phys ((va &&& 0xFFFFFFFC) + BitVec.ofNat 32 ((va.extractLsb' 0 2).toFin : Fin 4)) :=
    congrArg s.phys (aligned_add_low va).symm
  have hiff : s.phys ((va &&& 0xFFFFFFFC) + BitVec.ofNat 32 m) = s.phys va ↔ m = (va.extractLsb' 0 2).toFin := by
    rw [hva]
    exact hdistinct.eq_iff
  rw [State.bytesFrom, State.byteAt, hsame m, State.advance_mem, State.read_memWriteByte, Function.update_apply]
  simp only [hiff]
  rfl

/-- The aligned word after such a write is the word before with the address's lane stored to (R56, R93). -/
theorem wordAt_memWriteByte {s : State} {va : Word} (v : Byte)
    (hdistinct : Function.Injective fun m : Fin 4 => s.phys ((va &&& 0xFFFFFFFC) + BitVec.ofNat 32 m))
    (hsame : ∀ m : Fin 4, (s.memWriteByte va v).advance.phys ((va &&& 0xFFFFFFFC) + BitVec.ofNat 32 m) =
      s.phys ((va &&& 0xFFFFFFFC) + BitVec.ofNat 32 m)) :
    (s.memWriteByte va v).advance.wordAt (va &&& 0xFFFFFFFC) =
      laneStore (s.wordAt (va &&& 0xFFFFFFFC)) (busLane s.cfg.bigEndianCPU va) v := by
  rw [State.wordAt_eq_bytesFrom, State.wordAt_eq_bytesFrom, laneStore_wordOfBytes]
  simp only [bytesFrom_memWriteByte v hdistinct hsame]
  rfl

/-- The lane of an address in its aligned word holds the byte at the address (R93). -/
theorem laneByte_wordAt (s : State) (va : Word) :
    laneByte (s.wordAt (va &&& 0xFFFFFFFC)) (busLane s.cfg.bigEndianCPU va) = s.byteAt va := by
  rw [State.wordAt_eq_bytesFrom, laneByte_wordOfBytes]
  exact congrArg s.byteAt (aligned_add_low va)

/-- Storing the changed byte to the lane it was read from changes one bit of the word (R56). -/
theorem getLsbD_laneStore_changeBit (p : Bool) {bit : Nat} (hbit : bit < 8) (be : Bool) (va w : Word) (n : Nat) :
    (laneStore w (busLane be va) (changeBit p bit (laneByte w (busLane be va)))).getLsbD n =
      if n = 8 * busLane be va + bit then p else w.getLsbD n := by
  have hlane : busLane be va < 4 := by
    rw [busLane_eq]
    exact Fin.isLt _
  rw [laneStore, getLsbD_putField _ _ _ _ (by omega)]
  by_cases hin : 8 * busLane be va ≤ n ∧ n < 8 * busLane be va + 8
  · obtain ⟨hlow, hhigh⟩ := hin
    have hiff : n - 8 * busLane be va = bit ↔ n = 8 * busLane be va + bit := by omega
    rw [if_pos ⟨hlow, hhigh⟩, getLsbD_changeBit p hbit, laneByte, BitVec.getLsbD_extractLsb',
      Nat.add_sub_cancel' hlow]
    simp only [hiff, show n - 8 * busLane be va < 8 by omega, decide_true, Bool.true_and]
  · rw [if_neg hin, if_neg (by omega)]

/-- Settles O26: the word afterwards is the word before with the lane of the address stored to, and what is stored
differs from what the lane held in the one bit. -/
theorem stackWordSeesTheBit : Obligations.StackWordSeesTheBit := by
  intro base bit offset s p hd hf ha hnodup
  refine ⟨_, (exec_setOrClear p base bit offset s).trans (atomicBit_eq hd hf ha), fun hsame n => ?_⟩
  have hdistinct : Function.Injective fun m : Fin 4 =>
      s.phys ((s.effAddr base offset &&& 0xFFFFFFFC) + BitVec.ofNat 32 m) :=
    List.nodup_ofFn.1 hnodup
  have hmem : ∀ m : Fin 4, BitVec.ofNat 32 m ∈ ([0, 1, 2, 3] : List Word) := by decide
  obtain ⟨-, hbit, -⟩ := hf
  rw [wordAt_memWriteByte _ hdistinct fun m => hsame _ (hmem m), ← laneByte_wordAt s (s.effAddr base offset)]
  exact getLsbD_laneStore_changeBit p hbit _ _ _ n

end Sys2Proof.Machine
end

section
/-! The obligations about reset, the boundary and the fetch (10_state section 6, 60_exceptions section 5, 70_reset). -/

namespace Sys2Proof.Machine

/-! Reset (R44, R160). -/

/-- Settles O7: the reset state's fields are evaluated. -/
theorem resetState : Obligations.ResetState :=
  ⟨by decide, by decide, by decide, State.xs_zero State.reset, rfl, by decide, by decide⟩

/-- Settles O8: each clause is evaluated on the reset state. -/
theorem resetMeetsInvariant : Obligations.ResetMeetsInvariant :=
  ⟨⟨by decide, by decide, by decide, by decide, by decide, by decide, by decide, by decide⟩, by decide⟩

/-- Settles O17: the event comes before the interrupt and the fetch, and its entry is read field by field. -/
theorem resetEventIsTaken : Obligations.ResetEventIsTaken := by
  intro s k hok hevent
  obtain ⟨herl, hbev⟩ := resetEntry_statusBits k s.boundaryPassed
  obtain ⟨hpss, hhss, hcss, hess, heicss, hreset⟩ := resetEntry_sets k s.boundaryPassed
  have hmode : statusMode s.cfg (resetEntry k s.boundaryPassed).status = .kernel :=
    (statusMode_eq_kernel_iff _ _).2 (.inr (.inr herl))
  have heret : (resetEntry k s.boundaryPassed).actsAsEret = true :=
    (State.actsAsEret_iff _).2 (.inr (.inl herl))
  exact ⟨_, step_reset hok hevent, herl, hpss, resetEntry_ebaseTop k _, rfl, hbev, hreset, hmode, heret,
    State.xs_zero _, hhss, rfl, rfl, hcss, hess, heicss, rfl, rfl, rfl, rfl, rfl, rfl, Memory.wf_ofCells ..⟩

/-! The fetched word (R69, R76, R78). -/

theorem execWord_of_instr {w : Word} {i : Instr} (h : decodeWord w = .instr i) (s : State) :
    execWord w s = exec i s := by
  rw [execWord, h]

theorem execWord_of_not_instr {w : Word} (h : ∀ i, decodeWord w ≠ .instr i) (s : State) :
    execWord w s = .refused (.notInScope w) := by
  unfold execWord
  split
  · next i hi => exact absurd hi (h i)
  · rfl

/-- Settles O9: a fetch that goes through, then the decoder, whose instructions are well formed. -/
theorem stepRunsTheDecodedInstruction : Obligations.StepRunsTheDecodedInstruction := by
  intro s i hready hi
  obtain ⟨hwf, -⟩ := encodeOfDecode _ _ hi
  exact ⟨hwf, (step_of_fetchReady hready).trans (execWord_of_instr hi _)⟩

/-- Settles O10: a fetch that goes through, then the refusal by name. -/
theorem stepRefusesOtherWords : Obligations.StepRefusesOtherWords := by
  intro s hready hno
  exact (step_of_fetchReady hready).trans (execWord_of_not_instr hno _)

/-- Settles O11: the fetch tests ISAMode first. -/
theorem microMipsFetchIsRefused : Obligations.MicroMipsFetchIsRefused := by
  intro s hok hreset hdue hm hisa
  rw [step_run hok hreset hdue, State.fetch, if_pos (by simp [hm, hisa]), Eff.andThen_refuse]

/-- Settles O12: a step tests the configuration first, a chaining IRET after its set number. -/
theorem unhousedIsaOnExcIsRefused : Obligations.UnhousedIsaOnExcIsRefused := by
  intro s hisa hm
  have hunhoused : s.isaOnExcUnhoused = true := by simp [State.isaOnExcUnhoused, hisa, hm]
  refine ⟨if_pos hunhoused, fun hr h4 hret hss => ?_⟩
  rw [execIret_of_not_returns hr h4 hret, iretChain]
  exact (if_neg (BitVec.not_lt.2 hss)).trans (if_pos hunhoused)

/-! Modified code (R67). -/

/-- No step unmarks a byte. -/
theorem step_keeps_marks {s t : State} (h : step s = .next t) {a : Nat} (ha : a ∈ s.stored) : a ∈ t.stored := by
  obtain ⟨k, -, rfl⟩ | htook | ⟨i, -, hdone⟩ := step_next_cases h
  · exact ha
  · obtain ⟨-, -, hstored⟩ := tookException_sameFixed htook
    exact hstored ▸ ha
  · cases hdone with
    | atomic v hi => exact (mem_markStored _ _ _).2 (.inr ha)
    | eret hu hact => exact ha
    | ret b c d hu hact hs' hpss hess => obtain rfl | rfl := hs' <;> exact ha
    | chain b v hu hact hice hss => exact ha

/-- A word one of whose four bytes is marked is modified (R67). -/
theorem State.wordModified_of_mem {s : State} {va k : Word} (hk : k < 4) (h : s.phys (va + k) ∈ s.stored) :
    s.wordModified va = true := by
  have hcases : k = 0 ∨ k = 1 ∨ k = 2 ∨ k = 3 := by bv_omega
  rw [← List.contains_iff_mem] at h
  obtain rfl | rfl | rfl | rfl := hcases <;> simp_all [State.wordModified]

/-- A fetch that would go through but for a marked byte is refused (R67). -/
theorem State.fetch_of_modified {s : State} (hisa : (s.cfg.hasMicroMIPS && s.isaMode) = false)
    (ha : s.pc.extractLsb' 0 2 = 0) (ht : s.translate s.pc .fetch = .ok (s.phys s.pc) (s.mapping s.pc).2)
    (hmod : s.wordModified s.pc = true) : s.fetch = .refuse .modifiedCode := by
  rw [State.fetch, if_neg (by simp [hisa]), if_pos ha, ht]
  exact if_pos hmod

/-- Settles O13: the write marks, no step unmarks, and the fetch asks for marks last. -/
theorem fetchOfModifiedByteIsRefused : Obligations.FetchOfModifiedByteIsRefused := by
  refine ⟨fun base bit offset s t i hi h ha => ?_, fun s t h a ha => step_keeps_marks h ha,
    fun s k hready hk hmark => ?_⟩
  · obtain ⟨-, v, rfl⟩ | ⟨hna, -⟩ := exec_atomic_next hi h
    · exact (mem_markStored _ _ _).2 (.inl rfl)
    · exact absurd ha hna
  · obtain ⟨hok, hreset, hdue, hisa, halign, ht, -⟩ := hready
    have hview : ({ s with stored := [] } : State).view = s.view := rfl
    have ht : s.translate s.pc .fetch = .ok (s.phys s.pc) (s.mapping s.pc).2 := by
      rw [← State.translate_congr hview, ← State.phys_congr hview, ← State.mapping_congr hview]
      exact ht
    have hfetch := State.fetch_of_modified (s := s) hisa halign ht (State.wordModified_of_mem hk hmark)
    rw [step_run (s := s) hok hreset hdue, hfetch, Eff.andThen_refuse]

/-! Exceptions of a fetch (R133). -/

/-- A fetch that raises makes the step the taking of its exception. -/
theorem step_of_fetch_raise {s : State} {e : Exc} (hok : s.isaOnExcUnhoused = false) (hreset : s.resetEvent = none)
    (hdue : s.interruptDue = false) (h : s.fetch = .raise e) : step s = takeException e s.boundaryPassed := by
  rw [step_run hok hreset hdue, h, Eff.andThen_raise]

/-- The state the default entry leaves after a fetch's exception (R133, R140). -/
theorem step_of_fetch_raise_standard {s : State} {e : Exc} (h : step s = takeException e s.boundaryPassed)
    (he : ∀ va, e ≠ .cacheError va) (hbad : e.badAddr = some s.pc) (hstd : s.cfg.trapEntry = .standard)
    (hd : s.inDelaySlot = false) :
    ∃ t, t = trapEntry e s.boundaryPassed ∧ step s = .next t ∧ t.badVAddr = s.pc ∧
      causeExcCode s.cfg t.cause = e.code ∧ statusExl s.cfg t.status = true ∧ SameRegs s t ∧ SameMemory s t ∧
      t.llBit = s.llBit ∧ SameConfiguration s t ∧ SameEic s t := by
  refine ⟨_, rfl, h.trans (takeException_eq hstd hd he), ?_, causeExcCode_trapCause .., statusExl_trapEntry e _,
    fun _ _ => rfl, ⟨rfl, rfl⟩, rfl, sameConfiguration_trapEntry e s.boundaryPassed, rfl, rfl, rfl⟩
  rw [trapEntry_badVAddr, hbad]
  rfl

/-- Settles O14: alignment is tested before the translation. -/
theorem misalignedFetchTraps : Obligations.MisalignedFetchTraps := by
  intro s hok hreset hdue hisa halign
  have hfetch : s.fetch = .raise (.addressError .fetch s.pc) := by
    rw [State.fetch, if_neg (by simp [hisa]), if_neg halign]
  have hstep := step_of_fetch_raise hok hreset hdue hfetch
  exact ⟨hstep, step_of_fetch_raise_standard hstep nofun rfl⟩

/-- The codes of a fetch's translation are a load's (R130, R133). -/
theorem code_transExc_fetch {k : TransFault} (hk : k ≠ .tlbModified) (va : Word) :
    (transExc k .fetch va).code = if k = .addressError then 4 else 2 := by
  cases k with
  | tlbModified => exact absurd rfl hk
  | tlbRefill | tlbInvalid | addressError => rfl

/-- Settles O15: the translation's exception is raised for the pc, and TLB Modified answers stores only. -/
theorem fetchTranslationTraps : Obligations.FetchTranslationTraps := by
  intro s k hok hreset hdue hisa halign hfault
  have hk : k ≠ .tlbModified := by
    rintro rfl
    cases State.translate_tlbModified hfault
  have hfetch : s.fetch = .raise (transExc k .fetch s.pc) := by
    rw [State.fetch, if_neg (by simp [hisa]), if_pos halign, hfault]
  have hstep := step_of_fetch_raise hok hreset hdue hfetch
  refine ⟨hk, hstep, ?_⟩
  rw [← code_transExc_fetch hk s.pc]
  exact step_of_fetch_raise_standard hstep (transExc_ne_cacheError k _ _) (badAddr_transExc ..)

/-! The interrupt boundary (R138). -/

theorem State.interruptDue_iff (s : State) :
    s.interruptDue = true ↔ statusIe s.cfg s.status = true ∧ statusExl s.cfg s.status = false ∧
      statusErl s.cfg s.status = false ∧ statusIpl s.cfg s.status < s.irqRipl := by
  simp [State.interruptDue, and_assoc]

/-- No request is priority 0, which is above no IPL (R40). -/
theorem clipIpl_zero (c : Config) : clipIpl c 0 = 0 := by
  unfold clipIpl
  cases c.iplw <;> rfl

theorem fetch_ne_lostArm (s : State) : s.fetch ≠ .refuse .vectorNumLost := by
  unfold State.fetch
  split
  · exact nofun
  split
  · split
    · exact nofun
    · split <;> exact nofun
  · exact nofun

/-- Where no interrupt is due a step's outcome is regular. -/
theorem regular_step {s : State} (h : s.interruptDue = false) : Regular (step s) := by
  unfold step
  split
  · exact regular_refused nofun
  split
  · exact regular_next _
  rw [if_neg (by simp [h])]
  refine regular_andThen (fetch_ne_lostArm _) fun w => ?_
  unfold execWord
  split
  · exact regular_exec _ _
  · exact regular_refused nofun

/-- Settles O16: the condition's four conjuncts, each of which one of the second clause's cases denies. -/
theorem interruptEndsTheRun : Obligations.InterruptEndsTheRun := by
  refine ⟨fun s r rest hok hreset hirq hie hexl herl hlt => ?_, fun s hno => ?_⟩
  · have hripl : s.irqRipl = clipIpl s.cfg r := by rw [State.irqRipl, hirq, List.headD_cons]
    have hdue : s.interruptDue = true := s.interruptDue_iff.2 ⟨hie, hexl, herl, hripl ▸ hlt⟩
    rw [step, if_neg (by simp [hok]), hreset]
    dsimp only
    rw [if_pos hdue, hripl]
  · have hdue : s.interruptDue = false := by
      rw [Bool.eq_false_iff]
      intro hdue
      obtain ⟨hie, hexl, herl, hlt⟩ := s.interruptDue_iff.1 hdue
      obtain hnil | ⟨r, rest, hirq, hle⟩ | hie' | hexl' | herl' := hno
      · rw [State.irqRipl, hnil, List.headD_nil, clipIpl_zero] at hlt
        exact absurd hlt BitVec.not_lt_zero
      · rw [State.irqRipl, hirq, List.headD_cons] at hlt
        exact absurd hle (BitVec.not_le.2 hlt)
      · simp [hie'] at hie
      · simp [hexl'] at hexl
      · simp [herl'] at herl
    exact ⟨hdue, (regular_step hdue).noInterrupt⟩

end Sys2Proof.Machine
end
